-- ==== Sys2Proof/Word.lean ====
section
/-! DEFINITION. The word types of the core: the 8-bit byte and the 9-bit PC and SP value.
Rules: spec/00_scope.md R7, R9, R10; spec/10_state.md R25, R28. -/

namespace Sys2Proof

/-- One memory cell, one general register, one opcode or operand byte: 8 bits, unsigned (R7 `WORD`). -/
abbrev Byte := BitVec 8

/-- A PC or SP value: 9 bits, so that one past the end of memory can be held (R25, R28). -/
abbrev Word9 := BitVec 9

/-- `zext_N` of R10: an 8-bit value widened to a 9-bit PC or SP value, value unchanged. -/
abbrev zext9 (v : Byte) : Word9 := v.setWidth 9

end Sys2Proof
end

