-- ==== Sys2Proof/Syntax.lean ====
section
/-! DEFINITION. The instruction set as syntax: the thirteen instructions, their formats and operand kinds,
and an instruction with the operand bytes that follow it in memory.
Rules: spec/00_scope.md R2; spec/30_encoding.md R70, R73, R76, R81, R83. -/

namespace Sys2Proof

/-- The thirteen instructions (R2), one constructor per row of spec/opcode_table.json. This is the closed
enumeration of R81 that decode yields. A constructor has no arguments because a handler takes none: it
reads its own operand bytes from memory while it runs (spec/40_dispatch.md R92, R78; log entry 1), so
an operand that CALL's own push overwrites is read as overwritten (R156) and a not-taken JEQ reads
none (R159). -/
inductive Instr where
  | hlt   -- HLT  (R150)
  | ldi   -- LDI  (R130)
  | prn   -- PRN  (R132)
  | add   -- ADD  (R114)
  | mul   -- MUL  (R115)
  | push  -- PUSH (R141)
  | pop   -- POP  (R143)
  | call  -- CALL (R156)
  | ret   -- RET  (R157)
  | cmp   -- CMP  (R116)
  | jmp   -- JMP  (R158)
  | jeq   -- JEQ  (R159)
  | jne   -- JNE  (R160)
  deriving DecidableEq, Repr

/-- What an operand byte stands for (R76). -/
inductive OperandKind where
  | register   -- the whole byte is a register index (R77)
  | immediate  -- the byte is the data itself (LDI only)
  deriving DecidableEq, Repr

/-- The four formats (R73). -/
inductive Format where
  | none               -- `N`: opcode alone
  | reg                -- `R`: opcode, a
  | regReg             -- `RR`: opcode, a, b
  | regImm             -- `RI`: opcode, a, imm8
  deriving DecidableEq, Repr

/-- The operand bytes of a format, in memory order (R73). -/
def Format.operands : Format → List OperandKind
  | .none   => []
  | .reg    => [.register]
  | .regReg => [.register, .register]
  | .regImm => [.register, .immediate]

/-- The format of each instruction (R73). -/
def Instr.format : Instr → Format
  | .hlt | .ret => .none
  | .prn | .push | .pop | .call | .jmp | .jeq | .jne => .reg
  | .add | .mul | .cmp => .regReg
  | .ldi => .regImm

/-- One line of a program: an instruction with the operand bytes that stand behind its opcode in memory
(R83). The engine never builds one; a program image is a list of them. -/
structure Code where
  instr    : Instr
  operands : List Byte
  deriving DecidableEq, Repr

end Sys2Proof
end

