-- ==== Sys2Proof/WellFormed.lean ====
section
/-! DEFINITION. When a program line is well formed: as many operand bytes as its format has
(spec/30_encoding.md R70, R73). An operand byte above 7 in a register's place is NOT ill formed: R77 lets it
be encoded, and the fault comes only when the handler uses it. The narrower check that every register
operand names R0..R7 (R15, R83) stands beside it. -/

namespace Sys2Proof

/-- The line has exactly the operand bytes of its instruction's format (R70, R73). -/
def Code.WellFormed (c : Code) : Bool :=
  c.operands.length == c.instr.format.operands.length

/-- An operand byte fits its kind: a register operand names R0..R7 (R15); an immediate is any byte (R76). -/
def OperandKind.admits (k : OperandKind) (v : Byte) : Bool :=
  match k with
  | .register  => v.toNat < 8
  | .immediate => true

/-- What the assembly syntax of R83 can write: well formed, and every register operand names R0..R7. -/
def Code.Assembles (c : Code) : Bool :=
  c.WellFormed && (c.instr.format.operands.zip c.operands).all (fun p => p.1.admits p.2)

end Sys2Proof
end

