-- ==== Sys2Proof/Decode.lean ====
section
/-! DEFINITION. Decoding: from an opcode byte to one of the thirteen instructions or no handler, the fields of
the opcode byte that the engine reads, program lines from bytes; then the encoder.
Rules: spec/30_encoding.md R70 to R81; spec/40_dispatch.md R92, R93. -/

namespace Sys2Proof

/-- The decoder of R74 and R92: all 8 bits are compared, and every other byte has no handler (R79, R81).
The byte values are the LS-8 ones that decision D1 takes (log entry 2). -/
def decodeOpcode (op : Byte) : Option Instr :=
  match op with
  | 0x01#8 => some .hlt
  | 0x82#8 => some .ldi
  | 0x47#8 => some .prn
  | 0xA0#8 => some .add
  | 0xA2#8 => some .mul
  | 0x45#8 => some .push
  | 0x46#8 => some .pop
  | 0x50#8 => some .call
  | 0x11#8 => some .ret
  | 0xA7#8 => some .cmp
  | 0x54#8 => some .jmp
  | 0x55#8 => some .jeq
  | 0x56#8 => some .jne
  | _      => none

/-- The field `count`, `opcode[7:6]`: how many operand bytes follow (R71; R9 writes it `(opcode >> 6) & 0b11`). -/
def operandCount (op : Byte) : Nat := ((op >>> 6) &&& 0b11#8).toNat

/-- The field `setpc`, `opcode[4]`: the handler sets the PC itself (R71; R9 writes it `(opcode >> 4) & 0b1`). -/
def setsPc (op : Byte) : Bool := (op >>> 4) &&& 0b1#8 == 1#8

/-- The field `alu`, `opcode[5]` (R71). No rule reads it. -/
def aluBit (op : Byte) : Bool := (op >>> 5) &&& 0b1#8 == 1#8

/-- The length in bytes of the instruction at an opcode, from the opcode byte alone (R72). -/
def instrLength (op : Byte) : Nat := operandCount op + 1

/-- Why a list of bytes is no program line. The engine does not use this type: it decodes the opcode byte
alone (R78) and takes the faults of spec/60_exceptions.md. -/
inductive DecodeReject where
  | noByte                      -- there is no opcode byte
  | unknownOpcode (op : Byte)   -- the opcode byte has no handler (R79)
  | missingOperand (i : Instr)  -- the list ends before the operand bytes do (log entry 12)
  deriving DecidableEq, Repr

/-- Read one program line from the front of a list of bytes, with the bytes left over. Total on any bytes;
the operand bytes are taken as they are (R78). -/
def decodeBytes : List Byte → Except DecodeReject (Code × List Byte)
  | [] => .error .noByte
  | op :: rest =>
    match decodeOpcode op with
    | none => .error (.unknownOpcode op)
    | some i =>
      if rest.length < operandCount op then .error (.missingOperand i)
      else .ok (⟨i, rest.take (operandCount op)⟩, rest.drop (operandCount op))

/-- The bytes of an instruction given as one number, bit 0 the least significant bit of the first byte;
every bit from `nbits` up is 0, and an instruction has at most three bytes (R70). -/
def wordBytes (nbits w : Nat) : List Byte :=
  let v := w % 2 ^ nbits
  [BitVec.ofNat 8 v, BitVec.ofNat 8 (v / 2 ^ 8), BitVec.ofNat 8 (v / 2 ^ 16)]

/-- The instruction the decoder reads from a word of spec/opcode_table.json. -/
def decodeTableWord (nbits w : Nat) : Option Instr :=
  match decodeBytes (wordBytes nbits w) with
  | .ok (c, _) => some c.instr
  | .error _   => none

/-- The opcode byte of each instruction, written bit by bit from the column "binary" of R74. -/
def opcodeOf : Instr → Byte
  | .hlt  => 0b00000001#8
  | .ldi  => 0b10000010#8
  | .prn  => 0b01000111#8
  | .add  => 0b10100000#8
  | .mul  => 0b10100010#8
  | .push => 0b01000101#8
  | .pop  => 0b01000110#8
  | .call => 0b01010000#8
  | .ret  => 0b00010001#8
  | .cmp  => 0b10100111#8
  | .jmp  => 0b01010100#8
  | .jeq  => 0b01010101#8
  | .jne  => 0b01010110#8

/-- The bytes of a program line: the opcode, then the operand bytes (R70, R83). -/
def encode (c : Code) : List Byte := opcodeOf c.instr :: c.operands

/-- The thirteen instructions, in the order of R2. -/
def allInstrs : List Instr :=
  [.hlt, .ldi, .prn, .add, .mul, .push, .pop, .call, .ret, .cmp, .jmp, .jeq, .jne]

/-- `CALL`, `RET`, `JMP`, `JEQ` and `JNE` set the PC themselves (R75 point 3). -/
def Instr.setsPcItself : Instr → Bool
  | .call | .ret | .jmp | .jeq | .jne => true
  | .hlt | .ldi | .prn | .add | .mul | .push | .pop | .cmp => false

/-- The constraints of R75 on an `OPCODE_MAP` taken as a parameter (R8, D1): distinct bytes, the operand
count in bits 7:6, the sets-PC bit in bit 4. Its fourth point, that no other byte has a handler, is
`decodeWith`. -/
structure OpcodeMapValid (m : Instr → Byte) : Prop where
  distinct : ∀ i j : Instr, m i = m j → i = j
  count    : ∀ i : Instr, operandCount (m i) = i.format.operands.length
  setpc    : ∀ i : Instr, setsPc (m i) = i.setsPcItself

/-- The decoder of an arbitrary `OPCODE_MAP` (R8, R75, R81). The machine's own decoder is `decodeOpcode`. -/
def decodeWith (m : Instr → Byte) (op : Byte) : Option Instr :=
  allInstrs.find? (fun i => m i == op)

end Sys2Proof
end

