-- ==== Sys2Proof/Config.lean ====
section
/-! DEFINITION. What the spec fixes once for the machine (spec/00_scope.md R7) and the one value it leaves
open (`FAULT_EXIT_STATUS`, spec/10_state.md R42, decision D25). -/

namespace Sys2Proof

/-- A non-zero integer as plain data: its magnitude less one, and its sign. Every non-zero integer is
exactly one of these. -/
structure NonzeroInt where
  magnitudePred : Nat
  negative      : Bool
  deriving DecidableEq, Repr, Inhabited

/-- The integer a `NonzeroInt` stands for. -/
def NonzeroInt.toInt (n : NonzeroInt) : Int :=
  if n.negative then -((n.magnitudePred : Int) + 1) else (n.magnitudePred : Int) + 1

namespace Config

/-- `MEM_SIZE`: 256 cells, addresses 0..255 (R7, R50). -/
abbrev memSize : Nat := 256

/-- `NREG`: eight general registers, indices 0..7 (R7, R20). -/
abbrev regCount : Nat := 8

/-- `SP_INIT` = 0xF4 (R7, R27). -/
def spInit : Word9 := 0xF4#9

/-- `PC_INIT` = 0 (R7, R24). -/
def pcInit : Word9 := 0#9

/-- What an address that the memory list does not name reads as: 0, since memory is zero-initialised
(R52, R210). -/
def unlistedByte : Byte := 0#8

/-- `FAULT_EXIT_STATUS` (R42, D25): any non-zero integer, left OPEN by the spec. It has no body: no proof
can see which one it is (log entry 9). -/
opaque faultExitStatus : NonzeroInt

end Config
end Sys2Proof
end

