-- ==== Sys2Proof/Machine/State.lean ====
section
/-! DEFINITION. The state of the core as plain data, its reset value, and the reasons a step can stop.
Rules: spec/10_state.md R20 to R39; spec/60_exceptions.md R180, R183; spec/70_reset_and_hazards.md R210. -/

namespace Sys2Proof.Machine

/-- Why the model has no next state. A fault OF THE HARDWARE is no constructor here: the core takes it, as a
next state with status FAULTED and a fault record (R183; `takeFault` in Machine/Ops.lean). -/
inductive Fault where
  /-- Raised by `step` alone, in a state with status HALTED: there is no step (R33, R96, R98). Safe: the core
  executes nothing there either (log entry 4). -/
  | halted
  /-- Raised by `step` alone, in a state with status FAULTED: there is no step (R33, R96, R98). Safe: the core
  executes nothing there either (log entry 4). -/
  | faulted
  deriving DecidableEq, Repr

/-- Why the model declines. -/
inductive Refusal where
  /-- An instruction whose meaning is not written, by its mnemonic. No arm of `exec` raises it: every
  instruction is modelled. Safe. -/
  | notModelled (mnemonic : String)
  /-- Raised by `boot`: the image has more than 256 bytes, so the loader refuses and the core never starts
  (R40, R82, decision D19). Safe. -/
  | imageTooLong (length : Nat)
  /-- Raised by `boot`: an image value is above 255, so the loader refuses and the core never starts
  (R40, R82, decision D19). Safe. -/
  | imageValueTooLarge
  deriving DecidableEq, Repr

/-- The run status (R32). -/
inductive Status where
  | running
  | halted
  | faulted
  deriving DecidableEq, Repr

/-- The fault causes (R180). `unsupportedAluOp` is kept as a code; no instruction reaches it (R101, R185). -/
inductive FaultCause where
  | none
  | unknownOpcode
  | memBounds
  | regBounds
  | unsupportedAluOp
  deriving DecidableEq, Repr

/-- The fault record (R35), meaningful only when the status is FAULTED. `info` is an integer: an address may
be -1 (R180). -/
structure FaultRecord where
  cause  : FaultCause
  pc     : Word9
  opcode : Byte
  info   : Int
  deriving DecidableEq, Repr

/-- What `raise <Fault>(info)` carries (R11): the cause and the info. -/
structure Raised where
  cause : FaultCause
  info  : Int
  deriving DecidableEq, Repr

/-- The three independent one-bit flags (R29). -/
structure Flags where
  e : Bool
  l : Bool
  g : Bool
  deriving DecidableEq, Repr

/-- Memory: the cells that differ from what an unlisted address reads as, at strictly rising addresses. -/
abbrev Memory := List Host.Cell

/-- The complete architectural state (R39). -/
structure State where
  mem    : Memory          -- mem[0..255] (R50)
  x      : Vector Byte 8   -- x[0..7] (R20)
  pc     : Word9           -- R24, R25
  sp     : Word9           -- R27, R28
  flags  : Flags           -- E, L, G (R29)
  status : Status          -- R32
  ir     : Byte            -- R34
  record : FaultRecord     -- R35
  out    : List Byte       -- R36, oldest first
  deriving DecidableEq, Repr

/-- The fault record's reset value: all zeros, cause NONE (R35, R210). -/
def FaultRecord.reset : FaultRecord := ⟨.none, 0#9, 0#8, 0⟩

/-- The machine right after construction (R210). Every value is the spec's. -/
def State.reset : State where
  mem    := []
  x      := Vector.replicate 8 0#8
  pc     := Config.pcInit
  sp     := Config.spInit
  flags  := ⟨false, false, false⟩
  status := .running
  ir     := 0#8
  record := .reset
  out    := []

/-- The memory replaced. -/
def State.withMem (s : State) (m : Memory) : State := { s with mem := m }
/-- The register file replaced. -/
def State.withX (s : State) (x : Vector Byte 8) : State := { s with x := x }
/-- The program counter replaced: `pc <- target` (R11). -/
def State.withPc (s : State) (pc : Word9) : State := { s with pc := pc }
/-- The stack pointer replaced: `sp <- v` (R11). -/
def State.withSp (s : State) (sp : Word9) : State := { s with sp := sp }
/-- The flags replaced. -/
def State.withFlags (s : State) (f : Flags) : State := { s with flags := f }
/-- The run status replaced: `status <- …` (R11). -/
def State.withStatus (s : State) (st : Status) : State := { s with status := st }
/-- The instruction register replaced. -/
def State.withIr (s : State) (op : Byte) : State := { s with ir := op }
/-- The fault record replaced. -/
def State.withRecord (s : State) (r : FaultRecord) : State := { s with record := r }
/-- The output sequence replaced. -/
def State.withOut (s : State) (o : List Byte) : State := { s with out := o }

end Sys2Proof.Machine
end

