-- ==== Sys2Proof/Machine/Flags.lean ====
section
/-! DEFINITION. The flag computation: CMP picks one flag and sets it; no flag is ever cleared. The byte view FL.
Rules: spec/10_state.md R29, R30, R31; spec/41_alu.md R113, R116; spec/90_conflicts.md C1. -/

namespace Sys2Proof.Machine

/-- The names of the flags (R29). -/
inductive Flag where
  | equal
  | less
  | greater
  deriving DecidableEq, Repr

/-- `cmp8`: the one flag an unsigned comparison picks (R113). -/
def cmp8 (u v : Byte) : Flag :=
  if u.toNat = v.toNat then .equal else if u.toNat < v.toNat then .less else .greater

/-- Write 1 to one flag; the other two keep their values (R113). -/
def Flags.set (f : Flags) : Flag → Flags
  | .equal   => { f with e := true }
  | .less    => { f with l := true }
  | .greater => { f with g := true }

/-- The host's byte view FL: bit 0 is E, bit 1 is G, bit 2 is L, bits 7:3 read 0 (R31). No instruction uses it. -/
def Flags.flView (f : Flags) : Byte :=
  (if f.e then 0b001#8 else 0#8) ||| (if f.g then 0b010#8 else 0#8) ||| (if f.l then 0b100#8 else 0#8)

end Sys2Proof.Machine
end

