-- ==== Sys2Proof/Machine/Ops.lean ====
section
/-! DEFINITION. The named operations over memory, registers, stack and output, and taking a fault. Each
primitive is a checked access: an argument out of range raises the named fault instead of returning a value
(spec/00_scope.md R11).
Rules: spec/00_scope.md R11, R12; spec/20_memory.md R50 to R66; spec/43_stack.md R140;
spec/60_exceptions.md R180 to R183. -/

namespace Sys2Proof.Machine

/-- A checked computation: a value, or the fault it raises. A raised fault carries no state, so every write
of the instruction is discarded with it (R12). -/
abbrev Checked (α : Type) := Except Raised α

/-! ## Memory -/

/-- The byte at an address of the list; an unlisted address reads as `Config.unlistedByte` (R52). -/
def Memory.read : Memory → Nat → Byte
  | [], _ => Config.unlistedByte
  | (k, v) :: rest, a => if a = k then v else Memory.read rest a

/-- Put a byte in front of a list, or nothing when it is what an unlisted address reads as. -/
def Memory.cons (a : Nat) (v : Byte) (rest : Memory) : Memory :=
  if v = Config.unlistedByte then rest else (a, v) :: rest

/-- Write one byte, keeping the list's canonical form. -/
def Memory.write : Memory → Nat → Byte → Memory
  | [], a, v => Memory.cons a v []
  | (k, w) :: rest, a, v =>
    if a < k then Memory.cons a v ((k, w) :: rest)
    else if a = k then Memory.cons a v rest
    else (k, w) :: Memory.write rest a v

/-- Every address of the list lies in `lo` .. memSize - 1, addresses rise strictly, and no entry is what an
unlisted address reads as. -/
def Memory.wfFrom : Nat → Memory → Bool
  | _, [] => true
  | lo, (k, v) :: rest =>
    decide (lo ≤ k) && decide (k < Config.memSize) && (v != Config.unlistedByte) && Memory.wfFrom (k + 1) rest

/-- The canonical form of memory: equal memories are equal lists. -/
def Memory.wf (m : Memory) : Bool := Memory.wfFrom 0 m

/-- Store bytes at rising addresses from `base`. A byte that would fall outside memory is not stored. -/
def Memory.storeBytes (m : Memory) (base : Nat) : List Byte → Memory
  | [] => m
  | v :: rest => Memory.storeBytes (if base < Config.memSize then m.write base v else m) (base + 1) rest

/-- The byte a memory cell holds. -/
def State.memByte (s : State) (a : Nat) : Byte := s.mem.read a

/-- The check of every memory access: an address outside 0..255 raises MEM_BOUNDS(addr); no wrapping, no
masking (R11, R55, R181). -/
def memIndex : Int → Checked Nat
  | .ofNat a   => if a < Config.memSize then .ok a else .error ⟨.memBounds, .ofNat a⟩
  | .negSucc k => .error ⟨.memBounds, .negSucc k⟩

/-- `MemRead(addr, 1)` (R11). -/
def readMem (s : State) (addr : Int) : Checked Byte := do
  let a ← memIndex addr
  pure (s.memByte a)

/-- `MemWrite(addr, 1, v)` (R11). -/
def writeMem (s : State) (addr : Int) (v : Byte) : Checked State := do
  let a ← memIndex addr
  pure (s.withMem (s.mem.write a v))

/-! ## Registers -/

/-- The value of a general register (R20). -/
def State.reg (s : State) (r : Fin 8) : Byte := s.x[r]

/-- A general register replaced (R20). -/
def State.setReg (s : State) (r : Fin 8) (v : Byte) : State := s.withX (s.x.set r v)

/-- The byte that names a register as an operand: `Rn` encodes as the byte n (R83). -/
def regByte (r : Fin 8) : Byte := BitVec.ofNat 8 r.val

/-- The check of every register access: the whole byte is the index, never masked; above 7 it raises
REG_BOUNDS(i) (R11, R77, R182). -/
def regIndex (i : Byte) : Checked (Fin 8) :=
  if h : i.toNat < Config.regCount then .ok ⟨i.toNat, h⟩ else .error ⟨.regBounds, (i.toNat : Int)⟩

/-- `x[i]` as a value (R11). -/
def readReg (s : State) (i : Byte) : Checked Byte := do
  let r ← regIndex i
  pure (s.reg r)

/-- `x[i] <- v` (R11). -/
def writeReg (s : State) (i : Byte) (v : Byte) : Checked State := do
  let r ← regIndex i
  pure (s.setReg r v)

/-! ## Stack -/

/-- Push one byte: decrement, then write at the new `sp`; MEM_BOUNDS(-1) at `sp = 0` (R140, R141). -/
def push (s : State) (v : Byte) : Checked State := do
  let t ← writeMem s ((s.sp.toNat : Int) - 1) v
  pure (t.withSp (s.sp - 1#9))

/-- Pop one byte: read at `sp`, then increment; MEM_BOUNDS(256) at `sp = 256`. The cell keeps its value
(R140, R143, R157). -/
def pop (s : State) : Checked (Byte × State) := do
  let v ← readMem s (s.sp.toNat : Int)
  pure (v, s.withSp (s.sp + 1#9))

/-! ## Output -/

/-- `Emit(v)`: append to the end of `out` (R131). -/
def State.emit (s : State) (v : Byte) : State := s.withOut (s.out ++ [v])

/-! ## Taking a fault -/

/-- Fault entry (R183): status FAULTED and the four record fields; `s.pc` is the address of the opcode byte,
or the fetch address. Nothing else of `s` changes. There is no return from a fault (R188). -/
def takeFault (s : State) (opcode : Byte) (r : Raised) : State :=
  (s.withStatus .faulted).withRecord ⟨r.cause, s.pc, opcode, r.info⟩

/-- The end of a handler that ran from `s`: its state, or, where a statement raised, `s` itself with the fault
taken and `ir` as the recorded opcode (R12, R183). -/
def conclude (s : State) : Checked State → Host.Outcome State Fault Refusal
  | .ok t    => .next t
  | .error r => .next (takeFault s s.ir r)

end Sys2Proof.Machine
end

