-- ==== Sys2Proof/Machine/Operands.lean ====
section
/-! DEFINITION. The operand forms: a handler reads its operand bytes from memory behind its opcode, at `pc+1`
and `pc+2`, when its pseudocode reaches them.
Rules: spec/00_scope.md R13; spec/30_encoding.md R70, R76, R77, R78; spec/20_memory.md R54. -/

namespace Sys2Proof.Machine

/-- `a = MemRead(pc+1, 1)` (R13): a register index in every instruction that has it. -/
def operandA (s : State) : Checked Byte := readMem s ((s.pc.toNat : Int) + 1)

/-- `b = MemRead(pc+2, 1)` (R13): a register index (RR) or the immediate (RI). -/
def operandB (s : State) : Checked Byte := readMem s ((s.pc.toNat : Int) + 2)

/-- The value of the register that the first operand byte names: `a <- MemRead(pc+1, 1); v <- x[a]`. -/
def sourceA (s : State) : Checked Byte := do
  let a ← operandA s
  readReg s a

end Sys2Proof.Machine
end

