-- ==== Sys2Proof/Machine/Alu.lean ====
section
/-! DEFINITION. The ALU and its instructions ADD, MUL and CMP.
Rules: spec/41_alu.md R110 to R118; spec/40_dispatch.md R100, R101. -/

namespace Sys2Proof.Machine

/-- The ALU's operations. The type is closed to the three values, so UNSUPPORTED_ALU_OP cannot be raised
(R101, R185, decision D18; log entry 11). -/
inductive AluOp where
  | add
  | mul
  | cmp
  deriving DecidableEq, Repr

/-- `add8` (R111). -/
def add8 (u v : Byte) : Byte := BitVec.ofNat 8 ((u.toNat + v.toNat) % 256)

/-- `mul8`: the low 8 bits of the 16-bit product (R112). -/
def mul8 (u v : Byte) : Byte := BitVec.ofNat 8 ((u.toNat * v.toNat) % 256)

/-- `ALU(op, i, j)` (R100): both registers are read before anything is written (R118). -/
def alu (op : AluOp) (i j : Byte) (s : State) : Checked State := do
  let u ← readReg s i
  let v ← readReg s j
  match op with
  | .add => writeReg s i (add8 u v)
  | .mul => writeReg s i (mul8 u v)
  | .cmp => pure (s.withFlags (s.flags.set (cmp8 u v)))

/-- The shape of the three ALU instructions: read `a`, read `b`, call the ALU (R114, R115, R116). -/
def aluHandler (op : AluOp) (s : State) : Checked State := do
  let a ← operandA s
  let b ← operandB s
  alu op a b s

/-- ADD (R114). -/
def execAdd (s : State) : Host.Outcome State Fault Refusal := conclude s (aluHandler .add s)

/-- MUL (R115). -/
def execMul (s : State) : Host.Outcome State Fault Refusal := conclude s (aluHandler .mul s)

/-- CMP (R116). -/
def execCmp (s : State) : Host.Outcome State Fault Refusal := conclude s (aluHandler .cmp s)

end Sys2Proof.Machine
end

