-- ==== Sys2Proof/Machine/Control.lean ====
section
/-! DEFINITION. The control instructions HLT, CALL, RET, JMP, JEQ and JNE. HLT's PC advance is the engine's
(spec/40_dispatch.md R95); the other five set the PC themselves.
Rules: spec/44_control.md R150 to R162. -/

namespace Sys2Proof.Machine

/-- `a <- MemRead(pc+1, 1); pc <- x[a]` (R158). -/
def jumpThroughA (s : State) : Checked State := do
  let t ← sourceA s
  pure (s.withPc (zext9 t))

/-- `pc <- pc + 2`, no operand read (R159, R160, decision D15; log entry 15). -/
def skipOperand (s : State) : State := s.withPc (s.pc + 2#9)

/-- CALL's return address `pc + 2`, or MEM_BOUNDS(pc+2) when it lies outside memory (R156, decision D7;
log entry 14). -/
def returnAddress (s : State) : Checked Byte := do
  let ret ← memIndex ((s.pc.toNat : Int) + 2)
  pure (BitVec.ofNat 8 ret)

/-- HLT (R150). -/
def execHlt (s : State) : Host.Outcome State Fault Refusal :=
  conclude s (.ok (s.withStatus .halted))

/-- CALL (R156): the push comes first, then the operand is read from the memory the push left (decision D17;
log entry 17). -/
def execCall (s : State) : Host.Outcome State Fault Refusal :=
  conclude s do
    let ret ← returnAddress s
    let t ← push s ret
    jumpThroughA t

/-- RET (R157). -/
def execRet (s : State) : Host.Outcome State Fault Refusal :=
  conclude s do
    let (v, t) ← pop s
    pure (t.withPc (zext9 v))

/-- JMP (R158). -/
def execJmp (s : State) : Host.Outcome State Fault Refusal :=
  conclude s (jumpThroughA s)

/-- JEQ (R159): as JMP when E = 1. -/
def execJeq (s : State) : Host.Outcome State Fault Refusal :=
  conclude s (if s.flags.e then jumpThroughA s else .ok (skipOperand s))

/-- JNE (R160): as JMP when E = 0. -/
def execJne (s : State) : Host.Outcome State Fault Refusal :=
  conclude s (if s.flags.e then .ok (skipOperand s) else jumpThroughA s)

end Sys2Proof.Machine
end

