-- ==== Sys2Proof/Machine/LoadOutput.lean ====
section
/-! DEFINITION. The load-immediate and output instructions LDI and PRN.
Rules: spec/42_load_output.md R130, R131, R132. -/

namespace Sys2Proof.Machine

/-- LDI (R130): `a`, then `imm8`, then `x[a] <- imm8`. -/
def execLdi (s : State) : Host.Outcome State Fault Refusal :=
  conclude s do
    let a ← operandA s
    let imm ← operandB s
    writeReg s a imm

/-- PRN (R132): emit the value of register `a`. -/
def execPrn (s : State) : Host.Outcome State Fault Refusal :=
  conclude s do
    let v ← sourceA s
    pure (s.emit v)

end Sys2Proof.Machine
end

