-- ==== Sys2Proof/Machine/Stack.lean ====
section
/-! DEFINITION. The stack instructions PUSH and POP.
Rules: spec/43_stack.md R140 to R144. -/

namespace Sys2Proof.Machine

/-- PUSH (R141): `a`, then `x[a]`, then the stack write. -/
def execPush (s : State) : Host.Outcome State Fault Refusal :=
  conclude s do
    let v ← sourceA s
    push s v

/-- POP (R143): `a`, then the stack read, then the check of `a`. -/
def execPop (s : State) : Host.Outcome State Fault Refusal :=
  conclude s do
    let a ← operandA s
    let (v, t) ← pop s
    writeReg t a v

end Sys2Proof.Machine
end

