-- ==== Sys2Proof/Machine/Dispatch.lean ====
section
/-! DEFINITION. The dispatcher: each instruction is routed to exactly its handler
(spec/40_dispatch.md R92, R97). -/

namespace Sys2Proof.Machine

def exec (i : Instr) (s : State) : Host.Outcome State Fault Refusal :=
  match i with
  | .hlt => Sys2Proof.Machine.execHlt s
  | .ldi => Sys2Proof.Machine.execLdi s
  | .prn => Sys2Proof.Machine.execPrn s
  | .add => Sys2Proof.Machine.execAdd s
  | .mul => Sys2Proof.Machine.execMul s
  | .push => Sys2Proof.Machine.execPush s
  | .pop => Sys2Proof.Machine.execPop s
  | .call => Sys2Proof.Machine.execCall s
  | .ret => Sys2Proof.Machine.execRet s
  | .cmp => Sys2Proof.Machine.execCmp s
  | .jmp => Sys2Proof.Machine.execJmp s
  | .jeq => Sys2Proof.Machine.execJeq s
  | .jne => Sys2Proof.Machine.execJne s

end Sys2Proof.Machine
end

