-- ==== Sys2Proof/Machine/Cycle.lean ====
section
/-! DEFINITION. The engine's cycle around a handler: fetch, decode, execute, advance, as one transaction.
Rules: spec/40_dispatch.md R90 to R96, R98; spec/00_scope.md R12; spec/60_exceptions.md R183, R184, R186. -/

namespace Sys2Proof.Machine

/-- Fetch (R91): the byte at `pc`, or MEM_BOUNDS(pc) when `pc` is above 255. -/
def fetch (s : State) : Checked Byte := readMem s (s.pc.toNat : Int)

/-- PC advance (R93): by `op[7:6] + 1` from the opcode's address `pc` when `op[4] = 0`; else `t` as the
handler left it. -/
def advance (op : Byte) (pc : Word9) (t : State) : State :=
  if setsPc op then t else t.withPc (pc + BitVec.ofNat 9 (operandCount op + 1))

/-- The end of the cycle of `s` whose handler left `t`: the PC advance after a handler that completed, none
after one that raised a fault. A cycle that faults is undone as a whole, its write of `ir` too
(R12, R90, R183; log entry 3). -/
def completeCycle (s : State) (op : Byte) (t : State) : State :=
  if t.status = .faulted then t.withIr s.ir else advance op s.pc t

/-- What the cycle does once the opcode is known: run the handler with `ir` written, or raise
UNKNOWN_OPCODE(ir) (R92, R184). -/
def runOpcode (decode : Byte → Option Instr) (s : State) (op : Byte) : Host.Outcome State Fault Refusal :=
  match decode op with
  | none => .next (takeFault s op ⟨.unknownOpcode, (op.toNat : Int)⟩)
  | some i =>
    match exec i (s.withIr op) with
    | .next t    => .next (completeCycle s op t)
    | .fault r   => .fault r
    | .refused r => .refused r

/-- One cycle (R90), for any decoder; a fault of the fetch itself records opcode 0 (R91, R183). -/
def cycle (decode : Byte → Option Instr) (s : State) : Host.Outcome State Fault Refusal :=
  match fetch s with
  | .error r => .next (takeFault s 0#8 r)
  | .ok op   => runOpcode decode s op

/-- A step of the engine (R98): a cycle while RUNNING; in HALTED and FAULTED there is no step (R33). -/
def engineStep (decode : Byte → Option Instr) (s : State) : Host.Outcome State Fault Refusal :=
  match s.status with
  | .running => cycle decode s
  | .halted  => .fault .halted
  | .faulted => .fault .faulted

/-- The instruction's bytes at `pc` in memory, three bytes long (its unused high bytes zero). -/
def placeWord (s : State) (nbits w : Nat) : State :=
  s.withMem (s.mem.storeBytes s.pc.toNat (wordBytes nbits w))

end Sys2Proof.Machine
end

