-- ==== Sys2Proof/Machine/Step.lean ====
section
/-! DEFINITION. The step of the machine, and placing an instruction where the step fetches next.
Rules: spec/40_dispatch.md R90, R98; spec/30_encoding.md R74. -/

namespace Sys2Proof.Machine

/-- One step, with the opcode values of R74. -/
def step (s : State) : Host.Outcome State Fault Refusal := engineStep decodeOpcode s

/-- `s` with one instruction stored at its `pc`. It stands for the host's load (R40), with the image at 0
when `s` is the reset state (log entry 10). -/
def State.withFetchWord (s : State) (nbits w : Nat) : State := placeWord s nbits w

end Sys2Proof.Machine
end

