-- ==== Sys2Proof/Machine/Lifecycle.lean ====
section
/-! DEFINITION. The host's side of a run: load, run under fuel, and what it observes at the end; and the numeric
codes of the status and the fault cause.
Rules: spec/10_state.md R32, R40 to R43; spec/40_dispatch.md R99; spec/60_exceptions.md R180;
spec/70_reset_and_hazards.md R213, R214. -/

namespace Sys2Proof.Machine

/-- The encoding of the run status (R32). -/
def Status.code : Status → BitVec 2
  | .running => 0#2
  | .halted  => 1#2
  | .faulted => 2#2

/-- The fault codes (R180). -/
def FaultCause.code : FaultCause → Nat
  | .none             => 0
  | .unknownOpcode    => 1
  | .memBounds        => 2
  | .regBounds        => 3
  | .unsupportedAluOp => 4

/-- Reset, then load (R40, R213): the image goes to `mem[0..n-1]` and the rest stays 0. An image the loader
refuses starts no core (decision D19; log entry 8). -/
def boot (img : List Nat) : Host.Outcome State Fault Refusal :=
  if img.length > Config.memSize then .refused (.imageTooLong img.length)
  else if img.any (fun v => decide (255 < v)) then .refused .imageValueTooLarge
  else .next (State.reset.withMem (State.reset.mem.storeBytes 0 (img.map (BitVec.ofNat 8))))

/-- One character of a binary literal. -/
def binaryDigit (c : Char) : Option Nat := if c = '0' then some 0 else if c = '1' then some 1 else none

/-- A token read as base 2: one or more characters `0` and `1`; anything else fails to parse (R82). -/
def parseBinary : List Char → Option Nat
  | [] => none
  | c :: cs => (c :: cs).foldl (fun acc d => do
      let v ← acc
      let b ← binaryDigit d
      pure (2 * v + b)) (some 0)

/-- The first token of a line in front of any `#` comment; empty for a blank or comment-only line (R82). -/
def firstToken (line : List Char) : List Char :=
  ((line.takeWhile (fun c => c != '#')).dropWhile Char.isWhitespace).takeWhile (fun c => !c.isWhitespace)

/-- The values of a program text, in line order; a line that does not parse is skipped without error (R82). The
text format is the loader's, not the core's (spec/00_scope.md R6). -/
def parseProgram (text : List Char) : List Nat :=
  (text.splitOn '\n').filterMap (fun line => parseBinary (firstToken line))

/-- Load a program text: the n-th parsed line becomes `mem[n-1]`; a value above 255 or more than 256 lines is
refused (R82, D19). -/
def bootText (text : List Char) : Host.Outcome State Fault Refusal := boot (parseProgram text)

/-- How a run under fuel ends (R99). -/
inductive RunEnd where
  | halted (s : State)    -- a state with status HALTED
  | faulted (s : State)   -- a state with status FAULTED
  | notEnded (s : State)  -- the fuel ran out; `s` is no final state (R99, D12)
  | stuck (s : State)     -- a RUNNING state without a next state; the model has none
  deriving DecidableEq, Repr

/-- Run the engine for at most `n` cycles (R41, R99). On a terminated engine it executes none. -/
def run : Nat → State → RunEnd
  | n, s =>
    match s.status with
    | .halted  => .halted s
    | .faulted => .faulted s
    | .running =>
      match n with
      | 0     => .notEnded s
      | k + 1 =>
        match step s with
        | .next t    => run k t
        | .fault _   => .stuck s
        | .refused _ => .stuck s

/-- What the host prints: each emitted value in decimal, one per line (R36, R132). -/
def State.outputLines (s : State) : List String := s.out.map (fun v => toString v.toNat)

/-- The host's process exit status (R42): none while RUNNING, 0 after HLT, FAULT_EXIT_STATUS after a fault. -/
def State.exitStatus (s : State) : Option Int :=
  match s.status with
  | .running => none
  | .halted  => some 0
  | .faulted => some Config.faultExitStatus.toInt

end Sys2Proof.Machine
end

