-- ==== Sys2Proof/Safety.lean ====
section
/-! DEFINITION. What counts as a safe run, and the terms the statements use: which instruction runs, a fault taken
without any other effect, the invariant of the state, reachable states, divergence.
Rules: spec/10_state.md R25, R28, R35; spec/40_dispatch.md R99; spec/60_exceptions.md R180 to R186. -/

namespace Sys2Proof.Machine

/-- The engine is running, its PC lies in memory and the byte there is `op`: the next cycle fetches `op` (R91). -/
abbrev State.Fetches (s : State) (op : Byte) : Prop :=
  s.status = .running ∧ s.pc.toNat ≤ 255 ∧ s.memByte s.pc.toNat = op

/-- The next cycle runs the instruction `i`: its opcode byte is fetched and decodes to `i` (R91, R92). -/
abbrev State.Runs (s : State) (i : Instr) : Prop :=
  s.status = .running ∧ s.pc.toNat ≤ 255 ∧ decodeOpcode (s.memByte s.pc.toNat) = some i

/-- The byte behind the opcode, `a` of R13. A statement that uses it says whether the address lies in memory. -/
abbrev State.byteA (s : State) : Byte := s.memByte (s.pc.toNat + 1)

/-- The second byte behind the opcode, `b` or `imm8` of R13. -/
abbrev State.byteB (s : State) : Byte := s.memByte (s.pc.toNat + 2)

/-- `t` is `s` with the fault of record `r` taken: status and record are written, and no register, memory, SP,
PC, flag or output change remains (R12, R183). -/
structure State.FaultedFrom (t s : State) (r : FaultRecord) : Prop where
  status : t.status = .faulted
  record : t.record = r
  mem    : t.mem = s.mem
  x      : t.x = s.x
  pc     : t.pc = s.pc
  sp     : t.sp = s.sp
  flags  : t.flags = s.flags
  out    : t.out = s.out

/-- The next cycle raises a fault after its fetch: the record holds the PC and the fetched opcode (R183). -/
def State.StepFaults (s : State) (cause : FaultCause) (info : Int) : Prop :=
  ∃ t, step s = .next t ∧ t.FaultedFrom s ⟨cause, s.pc, s.memByte s.pc.toNat, info⟩

/-- `t` is what the cycle of `s` leaves besides memory, registers, SP, flags and output: the fetched opcode in
`ir`, the given PC, and status and fault record as they were. -/
structure State.AdvancedTo (t s : State) (pc : Word9) : Prop where
  pc     : t.pc = pc
  ir     : t.ir = s.memByte s.pc.toNat
  status : t.status = s.status
  record : t.record = s.record

/-- The exceptions of the one-register instructions that read `x[a]` or a target in it, in order of check: the
operand byte lies outside memory, or the index is above 7 (R132, R158). -/
def OneRegisterFaults (i : Instr) : Prop :=
  (∀ s : State, s.Runs i → s.pc.toNat = 255 → s.StepFaults .memBounds 256) ∧
  (∀ s : State, s.Runs i → s.pc.toNat ≤ 254 → 7 < s.byteA.toNat → s.StepFaults .regBounds s.byteA.toNat)

/-- The exceptions of the two-register instructions, in order of check (R114). -/
def TwoRegisterFaults (i : Instr) : Prop :=
  (∀ s : State, s.Runs i → s.pc.toNat = 255 → s.StepFaults .memBounds 256) ∧
  (∀ s : State, s.Runs i → s.pc.toNat = 254 → s.StepFaults .memBounds 256) ∧
  (∀ s : State, s.Runs i → s.pc.toNat ≤ 253 → 7 < s.byteA.toNat → s.StepFaults .regBounds s.byteA.toNat) ∧
  (∀ s : State, s.Runs i → s.pc.toNat ≤ 253 → s.byteA.toNat ≤ 7 → 7 < s.byteB.toNat →
    s.StepFaults .regBounds s.byteB.toNat)

/-- A fault record that fault entry can leave in a state whose PC is `pc` (R180 to R184): the cause goes with
its info, and `fault_pc` is the PC, which a fault does not move (R183). -/
def FaultRecord.Legal (pc : Word9) (r : FaultRecord) : Prop :=
  r.pc = pc ∧
  match r.cause with
  | .none             => False
  | .unknownOpcode    => r.info = r.opcode.toNat ∧ decodeOpcode r.opcode = none
  | .memBounds        => r.info = -1 ∨ (256 ≤ r.info ∧ r.info ≤ 260)
  | .regBounds        => 8 ≤ r.info ∧ r.info ≤ 255
  | .unsupportedAluOp => False

/-- The invariant: memory is canonical and within 0..255, PC and SP lie in the ranges the spec derives
(R25: 0..258, R28: 0..256), and the fault record is legal when FAULTED and at its reset value otherwise (R35). -/
structure State.Inv (s : State) : Prop where
  mem     : s.mem.wf = true
  pc      : s.pc.toNat ≤ 258
  sp      : s.sp.toNat ≤ 256
  faulted : s.status = .faulted → s.record.Legal s.pc
  clean   : s.status ≠ .faulted → s.record = .reset

/-- `t` is reached from `s` by zero or more steps. -/
inductive Reaches (s : State) : State → Prop where
  | refl : Reaches s s
  | step {t u : State} : Reaches s t → Machine.step t = .next u → Reaches s u

/-- The run from `s` never ends (R99): however many cycles it is given, it has not ended. -/
def Diverges (s : State) : Prop := ∀ n, ∃ t, run n s = .notEnded t

/-- A run from `s` is safe when no state it reaches has faulted. -/
def SafeRun (s : State) : Prop := ∀ t, Reaches s t → t.status ≠ .faulted

end Sys2Proof.Machine
end

