-- ==== Sys2Proof/Certificates/Slice0/Obligations.lean ====
section
/-! DEFINITION. The statements for the provers. Each docstring names the rule of spec/ it formalises.
A fault clause is stated through `State.StepFaults` (Safety.lean): the fault record is written and no register,
memory, SP, PC, flag or output change remains; it says nothing of `ir` (log entry 3). -/

open Sys2Proof Sys2Proof.Machine

/-! ## Reset, views, encoding -/

/-- R210: the value of every piece of state at reset. -/
def Obligations.ResetValues : Prop :=
  (∀ a, a ≤ 255 → State.reset.memByte a = 0#8) ∧ (∀ r, State.reset.reg r = 0#8) ∧
  State.reset.sp = 0xF4#9 ∧ State.reset.pc = 0#9 ∧ State.reset.flags = ⟨false, false, false⟩ ∧
  State.reset.status = .running ∧ State.reset.ir = 0#8 ∧ State.reset.record = ⟨.none, 0#9, 0#8, 0⟩ ∧
  State.reset.out = []

/-- R31: the byte view FL has E in bit 0, G in bit 1, L in bit 2, and bits 7:3 read 0. The layout is the
spec's decision D14 (log entry 13). -/
def Obligations.FlagViewLayout : Prop :=
  ∀ f : Flags, f.flView.getLsbD 0 = f.e ∧ f.flView.getLsbD 1 = f.g ∧ f.flView.getLsbD 2 = f.l ∧
    ∀ k, 3 ≤ k → f.flView.getLsbD k = false

/-- R32, R42, R180: the numeric codes, and the exit status: none while RUNNING, 0 after HLT, some non-zero value
after a fault. FAULT_EXIT_STATUS is free (log entry 9): the statement holds for every non-zero value of it. -/
def Obligations.CodesAndExitStatus : Prop :=
  (Status.code .running = 0#2 ∧ Status.code .halted = 1#2 ∧ Status.code .faulted = 2#2) ∧
  (FaultCause.code .none = 0 ∧ FaultCause.code .unknownOpcode = 1 ∧ FaultCause.code .memBounds = 2 ∧
    FaultCause.code .regBounds = 3 ∧ FaultCause.code .unsupportedAluOp = 4) ∧
  (∀ s : State, s.status = .running → s.exitStatus = none) ∧
  (∀ s : State, s.status = .halted → s.exitStatus = some 0) ∧
  (∀ s : State, s.status = .faulted → ∃ n, s.exitStatus = some n ∧ n ≠ 0)

/-- R74: the thirteen rows of the opcode map, each with its count field, sets-PC bit and format. The byte values
are the spec's decision D1 (log entry 2). -/
def Obligations.SpecOpcodeRowsDecode : Prop :=
  ∀ row ∈ ([(0b00000001#8, Instr.hlt, 0, false, Format.none), (0b10000010#8, Instr.ldi, 2, false, Format.regImm),
      (0b01000111#8, Instr.prn, 1, false, Format.reg), (0b10100000#8, Instr.add, 2, false, Format.regReg),
      (0b10100010#8, Instr.mul, 2, false, Format.regReg), (0b01000101#8, Instr.push, 1, false, Format.reg),
      (0b01000110#8, Instr.pop, 1, false, Format.reg)] ++
     [(0b01010000#8, Instr.call, 1, true, Format.reg), (0b00010001#8, Instr.ret, 0, true, Format.none),
      (0b10100111#8, Instr.cmp, 2, false, Format.regReg), (0b01010100#8, Instr.jmp, 1, true, Format.reg),
      (0b01010101#8, Instr.jeq, 1, true, Format.reg), (0b01010110#8, Instr.jne, 1, true, Format.reg)]),
    decodeOpcode row.1 = some row.2.1 ∧ operandCount row.1 = row.2.2.1 ∧ setsPc row.1 = row.2.2.2.1 ∧
      row.2.1.format = row.2.2.2.2

/-- R75: the values of R74 meet the four constraints on an opcode map: distinct bytes, the operand count in bits
7:6, the sets-PC bit in bit 4, and no handler for any other byte. -/
def Obligations.OpcodeMapMeetsConstraints : Prop :=
  OpcodeMapValid opcodeOf ∧ (∀ i, decodeOpcode (opcodeOf i) = some i) ∧
  (∀ op, (∀ i, opcodeOf i ≠ op) → decodeOpcode op = none)

/-- R70, R73, R83: reading back the bytes of a well-formed line, with any bytes behind it, gives that line, for
every operand byte. -/
def Obligations.DecodeOfEncode : Prop :=
  ∀ (c : Code) (rest : List Byte), c.WellFormed = true → decodeBytes (encode c ++ rest) = .ok (c, rest)

/-- R70, R73, R81: every line that decodes is well formed, and its encoding is the bytes it was read from. -/
def Obligations.EncodeOfDecode : Prop :=
  ∀ (bs : List Byte) (c : Code) (rest : List Byte), decodeBytes bs = .ok (c, rest) →
    c.WellFormed = true ∧ encode c ++ rest = bs

/-- R8, R75, R81: the decoder of any valid opcode map answers an instruction on exactly its byte; the machine's own
decoder is the one of R74's map. -/
def Obligations.AnyValidMapDecodes : Prop :=
  (∀ m, OpcodeMapValid m → ∀ op i, decodeWith m op = some i ↔ m i = op) ∧
  (∀ op, decodeOpcode op = decodeWith opcodeOf op)

/-- R79: fetching an illegal byte raises UNKNOWN_OPCODE(op); there are 243 such bytes, 0x00 and every byte with
count 3 among them. -/
def Obligations.IllegalOpcodesFault : Prop :=
  (∀ s : State, s.status = .running → s.pc.toNat ≤ 255 → decodeOpcode (s.memByte s.pc.toNat) = none →
    s.StepFaults .unknownOpcode (s.memByte s.pc.toNat).toNat) ∧
  decodeOpcode 0x00#8 = none ∧ (∀ op, operandCount op = 3 → decodeOpcode op = none) ∧
  ((List.range 256).filter (fun n => decodeOpcode (BitVec.ofNat 8 n) == none)).length = 243

/-! ## The engine -/

/-- R90, R92, R93: a step runs the decoded instruction's meaning, with `ir` written; where the meaning completes,
the engine then advances the PC if `op[4] = 0`; where it takes a fault, that state is kept, and `ir` holds
again what it held before the cycle (log entry 3, DEDUCED). -/
def Obligations.StepRunsDecodedInstruction : Prop :=
  ∀ (s u : State) (op : Byte) (i : Instr), s.Fetches op → decodeOpcode op = some i →
    exec i (s.withIr op) = .next u →
    (u.status ≠ .faulted → setsPc op = false →
      step s = .next (u.withPc (s.pc + BitVec.ofNat 9 (operandCount op + 1)))) ∧
    (u.status ≠ .faulted → setsPc op = true → step s = .next u) ∧
    (u.status = .faulted → step s = .next (u.withIr s.ir))

/-- R53, R70, R76, R92: where memory at the PC holds the bytes of a well-formed line, the engine runs that line's
instruction, and a read of memory behind the opcode gives that line's operand bytes. -/
def Obligations.EncodedLineIsRun : Prop :=
  ∀ (s : State) (c : Code), s.status = .running → c.WellFormed = true →
    s.pc.toNat + (encode c).length ≤ 256 →
    (∀ k v, (encode c)[k]? = some v → s.memByte (s.pc.toNat + k) = v) →
    s.Runs c.instr ∧ ∀ (k : Nat) (v : Byte), c.operands[k]? = some v → readMem s ((s.pc.toNat : Int) + 1 + k) = .ok v

/-- From R98: a RUNNING engine always has a next state, which is the FAULTED state of R183 where the cycle raises a
fault; a HALTED or FAULTED one has no step. That "no step" shows as the outcome `fault` of that name is the
model's choice (log entry 4, DESIGN CHOICE). -/
def Obligations.StepOutcomes : Prop :=
  (∀ s : State, s.status = .running →
    ∃ t, step s = .next t ∧ (t.status = .faulted → t.FaultedFrom s t.record ∧ t.record.pc = s.pc)) ∧
  (∀ s : State, s.status = .halted → step s = .fault .halted) ∧
  (∀ s : State, s.status = .faulted → step s = .fault .faulted)

/-- R91: fetching at a PC above 255 raises MEM_BOUNDS(pc) with `fault_opcode = 0`; otherwise the byte at the PC
goes into `ir`. -/
def Obligations.FetchReadsOrFaults : Prop :=
  (∀ s : State, s.status = .running → 255 < s.pc.toNat →
    ∃ t, step s = .next t ∧ t.FaultedFrom s ⟨.memBounds, s.pc, 0#8, s.pc.toNat⟩) ∧
  (∀ s t : State, s.pc.toNat ≤ 255 → step s = .next t → t.status ≠ .faulted → t.ir = s.memByte s.pc.toNat)

/-- R93: after a handler that completes, the PC is the opcode's address plus `op[7:6] + 1` when `op[4] = 0`, and
what the handler set when `op[4] = 1`; no handler with `op[4] = 0` writes the PC. -/
def Obligations.PcAdvance : Prop :=
  (∀ (s t : State) (op : Byte), s.Fetches op → step s = .next t → t.status ≠ .faulted → op.getLsbD 4 = false →
    t.pc.toNat = s.pc.toNat + (op.extractLsb 7 6).toNat + 1) ∧
  (∀ (s t : State) (op : Byte), s.Fetches op → step s = .next t → t.status ≠ .faulted → op.getLsbD 4 = true →
    ∃ i u, decodeOpcode op = some i ∧ exec i (s.withIr op) = .next u ∧ t.pc = u.pc) ∧
  (∀ (s u : State) (op : Byte) (i : Instr), decodeOpcode op = some i → op.getLsbD 4 = false →
    exec i s = .next u → u.pc = s.pc)

/-- R183: fault entry writes the status, the raised code and info, the PC and the opcode, and changes nothing else; a
cycle that faults leaves exactly that of the state before it: `fault_pc` is the PC, `fault_opcode` the fetched
byte, or 0 when the fetch faulted. -/
def Obligations.FaultsArePrecise : Prop :=
  (∀ (s : State) (op : Byte) (r : Raised), (takeFault s op r).FaultedFrom s ⟨r.cause, s.pc, op, r.info⟩) ∧
  (∀ s t : State, step s = .next t → t.status = .faulted →
    (∃ r : Raised, r.cause ≠ .none ∧
      t.FaultedFrom s ⟨r.cause, s.pc, (if s.pc.toNat ≤ 255 then s.memByte s.pc.toNat else 0#8), r.info⟩))

/-- R181: every MEM_BOUNDS fault of a step from a state that meets the invariant is a case of the table, with its
address. -/
def Obligations.MemBoundsCases : Prop :=
  ∀ s t : State, s.Inv → step s = .next t → t.status = .faulted → t.record.cause = .memBounds →
    (256 ≤ s.pc.toNat ∧ t.record.info = s.pc.toNat) ∨
    (s.pc.toNat = 255 ∧ t.record.info = 256 ∧
      ∃ i ∈ [Instr.ldi, .prn, .add, .mul, .cmp, .push, .pop, .jmp, .jeq, .jne], s.Runs i ∧
        (i = .jeq → s.flags.e = true) ∧ (i = .jne → s.flags.e = false)) ∨
    (s.pc.toNat = 254 ∧ t.record.info = 256 ∧ ∃ i ∈ [Instr.ldi, .add, .mul, .cmp], s.Runs i) ∨
    (254 ≤ s.pc.toNat ∧ s.Runs .call ∧ t.record.info = (s.pc.toNat : Int) + 2) ∨
    (s.sp.toNat = 0 ∧ t.record.info = -1 ∧ (s.Runs .push ∨ s.Runs .call)) ∨
    (s.sp.toNat = 256 ∧ t.record.info = 256 ∧ (s.Runs .pop ∨ s.Runs .ret))

/-! ## The instruction rules, each with its encoding, its exceptions in order of check, and its effect -/

/-- R130, LDI. The byte 0x82 is the spec's decision D1 (log entry 2). -/
def Obligations.LdiRule : Prop :=
  (opcodeOf .ldi = 0x82#8 ∧ Instr.ldi.format = .regImm ∧ instrLength (opcodeOf .ldi) = 3) ∧
  (∀ s : State, s.Runs .ldi → s.pc.toNat = 255 → s.StepFaults .memBounds 256) ∧
  (∀ s : State, s.Runs .ldi → s.pc.toNat = 254 → s.StepFaults .memBounds 256) ∧
  (∀ s : State, s.Runs .ldi → s.pc.toNat ≤ 253 → 7 < s.byteA.toNat → s.StepFaults .regBounds s.byteA.toNat) ∧
  (∀ (s : State) (a : Fin 8), s.Runs .ldi → s.pc.toNat ≤ 253 → s.byteA = regByte a →
    step s = .next (((s.setReg a s.byteB).withIr (opcodeOf .ldi)).withPc (s.pc + 3#9)))

/-- R132, PRN. The byte 0x47 is the spec's decision D1 (log entry 2). -/
def Obligations.PrnRule : Prop :=
  (opcodeOf .prn = 0x47#8 ∧ Instr.prn.format = .reg ∧ instrLength (opcodeOf .prn) = 2) ∧
  OneRegisterFaults .prn ∧
  (∀ (s : State) (a : Fin 8), s.Runs .prn → s.pc.toNat ≤ 254 → s.byteA = regByte a →
    step s = .next (((s.withOut (s.out ++ [s.reg a])).withIr (opcodeOf .prn)).withPc (s.pc + 2#9)))

/-- R114, ADD; BitVec addition on a byte is modulo 256. The byte 0xA0 is the spec's decision D1 (log entry 2). -/
def Obligations.AddRule : Prop :=
  (opcodeOf .add = 0xA0#8 ∧ Instr.add.format = .regReg ∧ instrLength (opcodeOf .add) = 3) ∧
  TwoRegisterFaults .add ∧
  (∀ (s : State) (a b : Fin 8), s.Runs .add → s.pc.toNat ≤ 253 → s.byteA = regByte a → s.byteB = regByte b →
    step s = .next (((s.setReg a (s.reg a + s.reg b)).withIr (opcodeOf .add)).withPc (s.pc + 3#9)))

/-- R115, MUL; BitVec multiplication on a byte is modulo 256. The byte 0xA2 is the spec's decision D1 (log entry 2). -/
def Obligations.MulRule : Prop :=
  (opcodeOf .mul = 0xA2#8 ∧ Instr.mul.format = .regReg ∧ instrLength (opcodeOf .mul) = 3) ∧
  TwoRegisterFaults .mul ∧
  (∀ (s : State) (a b : Fin 8), s.Runs .mul → s.pc.toNat ≤ 253 → s.byteA = regByte a → s.byteB = regByte b →
    step s = .next (((s.setReg a (s.reg a * s.reg b)).withIr (opcodeOf .mul)).withPc (s.pc + 3#9)))

/-- R116, CMP: one flag set, the other two kept, no register written. The byte 0xA7 is the spec's decision D1
(log entry 2). -/
def Obligations.CmpRule : Prop :=
  (opcodeOf .cmp = 0xA7#8 ∧ Instr.cmp.format = .regReg ∧ instrLength (opcodeOf .cmp) = 3) ∧
  TwoRegisterFaults .cmp ∧
  (∀ (s : State) (a b : Fin 8), s.Runs .cmp → s.pc.toNat ≤ 253 → s.byteA = regByte a → s.byteB = regByte b →
    ∃ f : Flags, step s = .next (((s.withFlags f).withIr (opcodeOf .cmp)).withPc (s.pc + 3#9)) ∧
      (s.reg a = s.reg b → f = ⟨true, s.flags.l, s.flags.g⟩) ∧
      ((s.reg a).toNat < (s.reg b).toNat → f = ⟨s.flags.e, true, s.flags.g⟩) ∧
      ((s.reg b).toNat < (s.reg a).toNat → f = ⟨s.flags.e, s.flags.l, true⟩))

/-- R141, PUSH: the address stored to is `sp - 1`, the new `sp`. The byte 0x45 is the spec's decision D1 (log
entry 2). SP lies in 0..256 in every reachable state (R28; `InvariantIsKept`); reading the stored byte back
needs the canonical memory of that invariant. -/
def Obligations.PushRule : Prop :=
  (opcodeOf .push = 0x45#8 ∧ Instr.push.format = .reg ∧ instrLength (opcodeOf .push) = 2) ∧
  OneRegisterFaults .push ∧
  (∀ s : State, s.Runs .push → s.pc.toNat ≤ 254 → s.byteA.toNat ≤ 7 → s.sp.toNat = 0 →
    s.StepFaults .memBounds (-1)) ∧
  (∀ (s : State) (a : Fin 8), s.Runs .push → s.pc.toNat ≤ 254 → s.byteA = regByte a →
    1 ≤ s.sp.toNat → s.sp.toNat ≤ 256 →
    ∃ t, step s = .next t ∧ t.sp.toNat = s.sp.toNat - 1 ∧
      (s.mem.wf = true → t.memByte (s.sp.toNat - 1) = s.reg a) ∧
      (∀ b, b ≠ s.sp.toNat - 1 → t.memByte b = s.memByte b) ∧
      t.x = s.x ∧ t.flags = s.flags ∧ t.out = s.out ∧ t.AdvancedTo s (s.pc + 2#9))

/-- R143, POP; memory is not written. The byte 0x46 is the spec's decision D1 (log entry 2). -/
def Obligations.PopRule : Prop :=
  (opcodeOf .pop = 0x46#8 ∧ Instr.pop.format = .reg ∧ instrLength (opcodeOf .pop) = 2) ∧
  (∀ s : State, s.Runs .pop → s.pc.toNat = 255 → s.StepFaults .memBounds 256) ∧
  (∀ s : State, s.Runs .pop → s.pc.toNat ≤ 254 → s.sp.toNat = 256 → s.StepFaults .memBounds 256) ∧
  (∀ s : State, s.Runs .pop → s.pc.toNat ≤ 254 → s.sp.toNat ≤ 255 → 7 < s.byteA.toNat →
    s.StepFaults .regBounds s.byteA.toNat) ∧
  (∀ (s : State) (a : Fin 8), s.Runs .pop → s.pc.toNat ≤ 254 → s.sp.toNat ≤ 255 → s.byteA = regByte a →
    step s = .next ((((s.setReg a (s.memByte s.sp.toNat)).withSp (s.sp + 1#9)).withIr (opcodeOf .pop)).withPc
      (s.pc + 2#9)))

/-- R150, HLT. The byte 0x01 is the spec's decision D1 (log entry 2). -/
def Obligations.HltRule : Prop :=
  (opcodeOf .hlt = 0x01#8 ∧ Instr.hlt.format = .none ∧ instrLength (opcodeOf .hlt) = 1) ∧
  (∀ s : State, s.Runs .hlt →
    step s = .next (((s.withStatus .halted).withIr (opcodeOf .hlt)).withPc (s.pc + 1#9)))

/-- R156, CALL: the return address first, then the push, then the operand read from the memory the push left: where
`sp - 1 = pc + 1` the index is the return address. The byte 0x50 is the spec's decision D1 (log entry 2).
The overwritten operand reads back in the canonical memory of the invariant. -/
def Obligations.CallRule : Prop :=
  (opcodeOf .call = 0x50#8 ∧ Instr.call.format = .reg ∧ instrLength (opcodeOf .call) = 2) ∧
  (∀ s : State, s.Runs .call → 254 ≤ s.pc.toNat → s.StepFaults .memBounds ((s.pc.toNat : Int) + 2)) ∧
  (∀ s : State, s.Runs .call → s.pc.toNat ≤ 253 → s.sp.toNat = 0 → s.StepFaults .memBounds (-1)) ∧
  (∀ (s : State) (i : Byte), s.Runs .call → s.mem.wf = true → s.pc.toNat ≤ 253 →
    1 ≤ s.sp.toNat → s.sp.toNat ≤ 256 →
    i = (if s.sp.toNat - 1 = s.pc.toNat + 1 then BitVec.ofNat 8 (s.pc.toNat + 2) else s.byteA) →
    (7 < i.toNat → s.StepFaults .regBounds i.toNat) ∧
    (∀ a : Fin 8, i = regByte a →
      ∃ t, step s = .next t ∧ t.sp.toNat = s.sp.toNat - 1 ∧
        (t.memByte (s.sp.toNat - 1)).toNat = s.pc.toNat + 2 ∧
        (∀ b, b ≠ s.sp.toNat - 1 → t.memByte b = s.memByte b) ∧
        t.x = s.x ∧ t.flags = s.flags ∧ t.out = s.out ∧ t.AdvancedTo s (zext9 (s.reg a))))

/-- R157, RET; memory is not written. The byte 0x11 is the spec's decision D1 (log entry 2). -/
def Obligations.RetRule : Prop :=
  (opcodeOf .ret = 0x11#8 ∧ Instr.ret.format = .none ∧ instrLength (opcodeOf .ret) = 1) ∧
  (∀ s : State, s.Runs .ret → s.sp.toNat = 256 → s.StepFaults .memBounds 256) ∧
  (∀ s : State, s.Runs .ret → s.sp.toNat ≤ 255 →
    step s = .next (((s.withSp (s.sp + 1#9)).withIr (opcodeOf .ret)).withPc (zext9 (s.memByte s.sp.toNat))))

/-- R158, JMP. The byte 0x54 is the spec's decision D1 (log entry 2). -/
def Obligations.JmpRule : Prop :=
  (opcodeOf .jmp = 0x54#8 ∧ Instr.jmp.format = .reg ∧ instrLength (opcodeOf .jmp) = 2) ∧
  OneRegisterFaults .jmp ∧
  (∀ (s : State) (a : Fin 8), s.Runs .jmp → s.pc.toNat ≤ 254 → s.byteA = regByte a →
    step s = .next ((s.withIr (opcodeOf .jmp)).withPc (zext9 (s.reg a))))

/-- R159, JEQ: with E = 0 it raises nothing at any PC, whatever byte stands behind it. The byte 0x55 is the spec's
decision D1 (log entry 2). -/
def Obligations.JeqRule : Prop :=
  (opcodeOf .jeq = 0x55#8 ∧ Instr.jeq.format = .reg ∧ instrLength (opcodeOf .jeq) = 2) ∧
  (∀ s : State, s.Runs .jeq → s.flags.e = true → s.pc.toNat = 255 → s.StepFaults .memBounds 256) ∧
  (∀ s : State, s.Runs .jeq → s.flags.e = true → s.pc.toNat ≤ 254 → 7 < s.byteA.toNat →
    s.StepFaults .regBounds s.byteA.toNat) ∧
  (∀ (s : State) (a : Fin 8), s.Runs .jeq → s.flags.e = true → s.pc.toNat ≤ 254 → s.byteA = regByte a →
    step s = .next ((s.withIr (opcodeOf .jeq)).withPc (zext9 (s.reg a)))) ∧
  (∀ s : State, s.Runs .jeq → s.flags.e = false →
    step s = .next ((s.withIr (opcodeOf .jeq)).withPc (s.pc + 2#9)))

/-- R160, JNE: with E = 1 it raises nothing. The byte 0x56 is the spec's decision D1 (log entry 2). -/
def Obligations.JneRule : Prop :=
  (opcodeOf .jne = 0x56#8 ∧ Instr.jne.format = .reg ∧ instrLength (opcodeOf .jne) = 2) ∧
  (∀ s : State, s.Runs .jne → s.flags.e = false → s.pc.toNat = 255 → s.StepFaults .memBounds 256) ∧
  (∀ s : State, s.Runs .jne → s.flags.e = false → s.pc.toNat ≤ 254 → 7 < s.byteA.toNat →
    s.StepFaults .regBounds s.byteA.toNat) ∧
  (∀ (s : State) (a : Fin 8), s.Runs .jne → s.flags.e = false → s.pc.toNat ≤ 254 → s.byteA = regByte a →
    step s = .next ((s.withIr (opcodeOf .jne)).withPc (zext9 (s.reg a)))) ∧
  (∀ s : State, s.Runs .jne → s.flags.e = true →
    step s = .next ((s.withIr (opcodeOf .jne)).withPc (s.pc + 2#9)))

/-! ## Completion: each meaning answers a next state, and which one -/

/-- R111, R112, R113: with both operand bytes in memory and both indices below 8, ADD, MUL and CMP complete: the sum
and the product modulo 256, and the one flag the unsigned comparison picks. -/
def Obligations.AluCompletes : Prop :=
  ∀ (s : State) (a b : Fin 8), s.pc.toNat ≤ 253 → s.byteA = regByte a → s.byteB = regByte b →
    exec .add s = .next (s.setReg a (BitVec.ofNat 8 (((s.reg a).toNat + (s.reg b).toNat) % 256))) ∧
    exec .mul s = .next (s.setReg a (BitVec.ofNat 8 (((s.reg a).toNat * (s.reg b).toNat) % 256))) ∧
    ((s.reg a).toNat = (s.reg b).toNat → exec .cmp s = .next (s.withFlags ⟨true, s.flags.l, s.flags.g⟩)) ∧
    ((s.reg a).toNat < (s.reg b).toNat → exec .cmp s = .next (s.withFlags ⟨s.flags.e, true, s.flags.g⟩)) ∧
    ((s.reg a).toNat > (s.reg b).toNat → exec .cmp s = .next (s.withFlags ⟨s.flags.e, s.flags.l, true⟩))

/-- LDI (R130) and PRN (R132) complete. -/
def Obligations.LoadAndOutputComplete : Prop :=
  (∀ (s : State) (a : Fin 8), s.pc.toNat ≤ 253 → s.byteA = regByte a →
    exec .ldi s = .next (s.setReg a s.byteB)) ∧
  (∀ (s : State) (a : Fin 8), s.pc.toNat ≤ 254 → s.byteA = regByte a →
    exec .prn s = .next (s.withOut (s.out ++ [s.reg a])))

/-- PUSH (R141) and POP (R143) complete: PUSH wherever `sp` is 1..256, POP wherever it is 0..255. -/
def Obligations.StackCompletes : Prop :=
  (∀ (s : State) (a : Fin 8), s.pc.toNat ≤ 254 → s.byteA = regByte a → 1 ≤ s.sp.toNat → s.sp.toNat ≤ 256 →
    exec .push s = .next ((s.withMem (s.mem.write (s.sp.toNat - 1) (s.reg a))).withSp (s.sp - 1#9))) ∧
  (∀ (s : State) (a : Fin 8), s.pc.toNat ≤ 254 → s.byteA = regByte a → s.sp.toNat ≤ 255 →
    exec .pop s = .next ((s.setReg a (s.memByte s.sp.toNat)).withSp (s.sp + 1#9)))

/-- HLT (R150), CALL (R156) and RET (R157) complete; CALL's operand byte is the one that stands at `pc + 1` after
the push. -/
def Obligations.HaltCallAndReturnComplete : Prop :=
  (∀ s : State, exec .hlt s = .next (s.withStatus .halted)) ∧
  (∀ (s t : State) (a : Fin 8), s.pc.toNat ≤ 253 → 1 ≤ s.sp.toNat → s.sp.toNat ≤ 256 →
    t = (s.withMem (s.mem.write (s.sp.toNat - 1) (BitVec.ofNat 8 (s.pc.toNat + 2)))).withSp (s.sp - 1#9) →
    t.byteA = regByte a → exec .call s = .next (t.withPc (zext9 (s.reg a)))) ∧
  (∀ s : State, s.sp.toNat ≤ 255 →
    exec .ret s = .next ((s.withSp (s.sp + 1#9)).withPc (zext9 (s.memByte s.sp.toNat))))

/-- JMP (R158), JEQ (R159) and JNE (R160) complete, taken and not taken. -/
def Obligations.JumpsComplete : Prop :=
  (∀ (s : State) (a : Fin 8), s.pc.toNat ≤ 254 → s.byteA = regByte a →
    exec .jmp s = .next (s.withPc (zext9 (s.reg a))) ∧
    (s.flags.e = true → exec .jeq s = .next (s.withPc (zext9 (s.reg a)))) ∧
    (s.flags.e = false → exec .jne s = .next (s.withPc (zext9 (s.reg a))))) ∧
  (∀ s : State, (s.flags.e = false → exec .jeq s = .next (s.withPc (s.pc + 2#9))) ∧
    (s.flags.e = true → exec .jne s = .next (s.withPc (s.pc + 2#9))))

/-! ## Frames: what a meaning leaves unchanged whenever it answers a next state, a taken fault among them -/

/-- LDI, ADD, MUL: every register but the one `a` names, and everything else but the PC; a taken fault also writes
the status and the fault record. -/
def Obligations.RegisterWriteFrame : Prop :=
  ∀ i ∈ [Instr.ldi, .add, .mul], ∀ s t : State, exec i s = .next t →
    (∀ r : Fin 8, s.byteA ≠ regByte r → t.reg r = s.reg r) ∧ (∀ b, t.memByte b = s.memByte b) ∧
    t.sp = s.sp ∧ t.flags = s.flags ∧ t.out = s.out ∧ t.ir = s.ir ∧
    (t.status ≠ .faulted → t.status = s.status ∧ t.record = s.record)

/-- PRN, CMP, HLT, JMP, JEQ, JNE: every register, memory, SP and `ir` unchanged; the flags but for CMP, and `out`
but for PRN, and the status but for HLT and a taken fault. -/
def Obligations.NoRegisterWriteFrame : Prop :=
  ∀ i ∈ [Instr.prn, .cmp, .hlt, .jmp, .jeq, .jne], ∀ s t : State, exec i s = .next t →
    (∀ r : Fin 8, t.reg r = s.reg r) ∧ (∀ b, t.memByte b = s.memByte b) ∧ t.sp = s.sp ∧ t.ir = s.ir ∧
    (i ≠ .cmp → t.flags = s.flags) ∧ (i ≠ .prn → t.out = s.out) ∧
    (i ≠ .hlt → t.status ≠ .faulted → t.status = s.status) ∧ (t.status ≠ .faulted → t.record = s.record)

/-- POP and RET: memory unchanged, the popped byte too; every register but the one POP's `a` names; SP unchanged or
one more. -/
def Obligations.PopAndReturnFrame : Prop :=
  ∀ i ∈ [Instr.pop, .ret], ∀ s t : State, exec i s = .next t →
    (∀ r : Fin 8, i = .ret ∨ s.byteA ≠ regByte r → t.reg r = s.reg r) ∧ (∀ b, t.memByte b = s.memByte b) ∧
    (t.sp = s.sp ∨ t.sp = s.sp + 1#9) ∧ t.flags = s.flags ∧ t.out = s.out ∧ t.ir = s.ir ∧
    (t.status ≠ .faulted → t.status = s.status ∧ t.record = s.record)

/-- PUSH and CALL: every byte but the one at `sp - 1`, the address the meaning checks with `memIndex`, and every
byte where that address is none or the fault is taken; every register; SP unchanged or one less. -/
def Obligations.PushAndCallFrame : Prop :=
  ∀ i ∈ [Instr.push, .call], ∀ s t : State, exec i s = .next t →
    (∀ r : Fin 8, t.reg r = s.reg r) ∧
    (∀ a, memIndex ((s.sp.toNat : Int) - 1) = .ok a → ∀ b, b ≠ a → t.memByte b = s.memByte b) ∧
    (∀ e, memIndex ((s.sp.toNat : Int) - 1) = .error e → ∀ b, t.memByte b = s.memByte b) ∧
    (s.status ≠ .faulted → t.status = .faulted → ∀ b, t.memByte b = s.memByte b) ∧
    (t.sp = s.sp ∨ t.sp = s.sp - 1#9) ∧ t.flags = s.flags ∧ t.out = s.out ∧ t.ir = s.ir ∧
    (t.status ≠ .faulted → t.status = s.status ∧ t.record = s.record)

/-! ## Whole-machine rules -/

/-- R30: a flag that is 1 stays 1 along every run. -/
def Obligations.FlagsAreSticky : Prop :=
  ∀ s t : State, Reaches s t → (s.flags.e = true → t.flags.e = true) ∧ (s.flags.l = true → t.flags.l = true) ∧
    (s.flags.g = true → t.flags.g = true)

/-- R29: the flags are 0 after reset; only CMP writes them; only JEQ and JNE read them, and those two read E alone:
with other flag values a step does the same to everything but the flags. -/
def Obligations.FlagsWrittenByCmpReadAsE : Prop :=
  State.reset.flags = ⟨false, false, false⟩ ∧
  (∀ s t : State, step s = .next t → t.flags ≠ s.flags → s.Runs .cmp) ∧
  (∀ (s t : State) (f : Flags), (s.Runs .jeq ∨ s.Runs .jne → f.e = s.flags.e) → step s = .next t →
    ∃ g, step (s.withFlags f) = .next (t.withFlags g))

/-- R21: the stack pointer is none of the eight registers, which all (R7 too) start at 0; writing any of them leaves
it, and only PUSH, POP, CALL and RET change it, by one. -/
def Obligations.StackPointerMovers : Prop :=
  (∀ r : Fin 8, State.reset.reg r = 0#8) ∧
  (∀ (s : State) (r : Fin 8) (v : Byte), (s.setReg r v).sp = s.sp ∧ (s.setReg r v).reg r = v) ∧
  (∀ s t : State, step s = .next t → t.sp ≠ s.sp →
    ((s.Runs .push ∨ s.Runs .call) ∧ t.sp.toNat + 1 = s.sp.toNat) ∨
    ((s.Runs .pop ∨ s.Runs .ret) ∧ t.sp.toNat = s.sp.toNat + 1))

/-- R22, the row "written": a step changes a general register only where LDI, ADD, MUL or POP names it as `a`. -/
def Obligations.RegisterWriters : Prop :=
  ∀ (s t : State) (r : Fin 8), step s = .next t → t.reg r ≠ s.reg r →
    (s.Runs .ldi ∨ s.Runs .add ∨ s.Runs .mul ∨ s.Runs .pop) ∧ s.byteA = regByte r

/-- R54, the rows "write" during a run: a step changes a byte of memory only where PUSH or CALL stores to it, at
`sp - 1`. -/
def Obligations.MemoryWriters : Prop :=
  ∀ (s t : State) (b : Nat), step s = .next t → t.memByte b ≠ s.memByte b →
    (s.Runs .push ∨ s.Runs .call) ∧ b + 1 = s.sp.toNat ∧ b ≤ 255

/-- R36, R131: a step leaves `out` or, for PRN, appends one value that is a general register's; along every run what
was emitted stays, in order, also where the run faults. -/
def Obligations.OutputOnlyGrows : Prop :=
  (∀ s t : State, step s = .next t →
    t.out = s.out ∨ (s.Runs .prn ∧ ∃ r : Fin 8, s.byteA = regByte r ∧ t.out = s.out ++ [s.reg r])) ∧
  (∀ s t : State, Reaches s t → s.out <+: t.out)

/-- The invariant of Safety.lean (R25, R28, R35, R55, R180) is kept by every step from every state that meets it. -/
def Obligations.InvariantIsKept : Prop :=
  ∀ s t : State, s.Inv → step s = .next t → t.Inv

/-- The reset state meets the invariant. -/
def Obligations.InvariantAtReset : Prop := State.reset.Inv

/-- Every state of every run of every image that the host can load meets the invariant; so no run raises
UNSUPPORTED_ALU_OP (R185), and PC and SP keep their ranges (R25, R28). -/
def Obligations.LoadedRunsKeepInvariant : Prop :=
  ∀ (img : List Nat) (s t : State), boot img = .next s → Reaches s t →
    t.Inv ∧ t.record.cause ≠ .unsupportedAluOp

/-- R96: after the cycle that executes HLT the engine executes no further cycle, whatever the fuel; the same after a
cycle that raises a fault, and from a state that is HALTED or FAULTED already (R33, R41). -/
def Obligations.NoCycleAfterTheEnd : Prop :=
  (∀ (s : State) (n : Nat), s.Runs .hlt →
    run (n + 1) s = .halted (((s.withStatus .halted).withIr (opcodeOf .hlt)).withPc (s.pc + 1#9))) ∧
  (∀ (s t : State) (n : Nat), step s = .next t → t.status = .faulted → run (n + 1) s = .faulted t) ∧
  (∀ (s : State) (n : Nat), s.status = .halted → run n s = .halted s) ∧
  (∀ (s : State) (n : Nat), s.status = .faulted → run n s = .faulted s)

/-- R99: every run ends HALTED, ends FAULTED, or diverges, and no run does two of these; a run that diverges exists,
from a state that meets the invariant. -/
def Obligations.RunEndsInOneOfThreeWays : Prop :=
  (∀ s : State,
    ((∃ n t, run n s = .halted t) ∨ (∃ n t, run n s = .faulted t) ∨ Diverges s) ∧
    ¬((∃ n t, run n s = .halted t) ∧ (∃ n t, run n s = .faulted t)) ∧
    ¬((∃ n t, run n s = .halted t) ∧ Diverges s) ∧ ¬((∃ n t, run n s = .faulted t) ∧ Diverges s)) ∧
  (∃ s : State, s.Inv ∧ Diverges s)

/-- R144: PUSH of a register, then code that leaves SP and the pushed byte, then POP into it, gives back the register
and SP. Memory is canonical (the invariant). -/
def Obligations.PushPopRoundTrip : Prop :=
  ∀ (s t u : State) (r : Fin 8), s.mem.wf = true → s.Runs .push → s.byteA = regByte r → step s = .next t →
    t.status ≠ .faulted → u.Runs .pop → u.pc.toNat ≤ 254 → u.byteA = regByte r → u.sp = t.sp →
    u.memByte u.sp.toNat = t.memByte t.sp.toNat →
    ∃ w, step u = .next w ∧ w.status = .running ∧ w.reg r = s.reg r ∧ w.sp = s.sp

/-- R161: a CALL at `c` that does not fault, then code that leaves SP and the pushed byte, then RET, resumes at
`c + 2` with SP back. Memory is canonical (the invariant). -/
def Obligations.CallReturnPair : Prop :=
  ∀ s t u : State, s.mem.wf = true → s.Runs .call → step s = .next t → t.status ≠ .faulted →
    u.Runs .ret → u.sp = t.sp → u.memByte u.sp.toNat = t.memByte t.sp.toNat →
    ∃ w, step u = .next w ∧ w.status = .running ∧ w.pc.toNat = s.pc.toNat + 2 ∧ w.sp = s.sp

/-- R40: the load puts an image of at most 256 values of at most 255 at `mem[0..n-1]` and leaves the rest of the
reset state; any other image is refused and the core never starts (D19). -/
def Obligations.LoadPutsImage : Prop :=
  (∀ img : List Nat, img.length ≤ 256 → (∀ v ∈ img, v ≤ 255) →
    ∃ s, boot img = .next s ∧ (∀ k v, img[k]? = some v → (s.memByte k).toNat = v) ∧
      (∀ k, img.length ≤ k → s.memByte k = 0#8) ∧ s = State.reset.withMem s.mem) ∧
  (∀ img : List Nat, 256 < img.length ∨ (∃ v ∈ img, 255 < v) → ∃ r, boot img = .refused r)

/-- R8, R75, R93: over any valid opcode map taken as the parameter, a fetched byte `m i` runs `i`, and the PC advance
is one more than the operand count of `i`'s format unless `i` sets the PC itself. -/
def Obligations.AnyValidMapRuns : Prop :=
  ∀ (m : Instr → Byte) (s u : State) (i : Instr), OpcodeMapValid m → s.Fetches (m i) →
    exec i (s.withIr (m i)) = .next u → u.status ≠ .faulted →
    engineStep (decodeWith m) s =
      .next (if i.setsPcItself then u else u.withPc (s.pc + BitVec.ofNat 9 (i.format.operands.length + 1)))
end

