-- ==== Sys2Proof/Laws/Decode.lean ====
section
/-! SUPPORT. Small facts about the opcode byte, proved by looking at every byte or every instruction once. -/

namespace Sys2Proof

/-- The decoder answers `i` on the opcode of `i` and on no other byte. -/
theorem decodeOpcode_eq_some : ∀ {op : Byte} {i : Instr}, decodeOpcode op = some i ↔ op = opcodeOf i := by
  have back : ∀ i : Instr, decodeOpcode (opcodeOf i) = some i := by intro i; cases i <;> rfl
  intro op i
  refine ⟨fun h => ?_, fun h => h ▸ back i⟩
  unfold decodeOpcode at h
  split at h <;> first | (cases h; rfl) | cases h

/-- The count field of an opcode is the number of operand bytes of the instruction's format (R75). -/
theorem operandCount_opcodeOf (i : Instr) : operandCount (opcodeOf i) = i.format.operands.length := by
  cases i <;> rfl

/-- Bit 4 of an opcode says whether the handler sets the PC (R75). -/
theorem setsPc_opcodeOf (i : Instr) : setsPc (opcodeOf i) = i.setsPcItself := by
  cases i <;> rfl

/-- No instruction has more than two operand bytes (R70). -/
theorem operandCount_le_two (i : Instr) : operandCount (opcodeOf i) ≤ 2 := by
  cases i <;> decide

theorem mem_allInstrs (i : Instr) : i ∈ allInstrs := by cases i <;> decide

end Sys2Proof
end

