-- ==== Sys2Proof/Laws/State.lean ====
section
/-! SUPPORT. One lemma per field per update of State, true by rfl, so that no later proof unfolds a record
update. -/

namespace Sys2Proof.Machine.State
variable (s : State)

@[simp] theorem withMem_mem (m : Memory) : (s.withMem m).mem = m := rfl
@[simp] theorem withMem_x (m : Memory) : (s.withMem m).x = s.x := rfl
@[simp] theorem withMem_pc (m : Memory) : (s.withMem m).pc = s.pc := rfl
@[simp] theorem withMem_sp (m : Memory) : (s.withMem m).sp = s.sp := rfl
@[simp] theorem withMem_flags (m : Memory) : (s.withMem m).flags = s.flags := rfl
@[simp] theorem withMem_status (m : Memory) : (s.withMem m).status = s.status := rfl
@[simp] theorem withMem_ir (m : Memory) : (s.withMem m).ir = s.ir := rfl
@[simp] theorem withMem_record (m : Memory) : (s.withMem m).record = s.record := rfl
@[simp] theorem withMem_out (m : Memory) : (s.withMem m).out = s.out := rfl

@[simp] theorem withX_mem (x : Vector Byte 8) : (s.withX x).mem = s.mem := rfl
@[simp] theorem withX_x (x : Vector Byte 8) : (s.withX x).x = x := rfl
@[simp] theorem withX_pc (x : Vector Byte 8) : (s.withX x).pc = s.pc := rfl
@[simp] theorem withX_sp (x : Vector Byte 8) : (s.withX x).sp = s.sp := rfl
@[simp] theorem withX_flags (x : Vector Byte 8) : (s.withX x).flags = s.flags := rfl
@[simp] theorem withX_status (x : Vector Byte 8) : (s.withX x).status = s.status := rfl
@[simp] theorem withX_ir (x : Vector Byte 8) : (s.withX x).ir = s.ir := rfl
@[simp] theorem withX_record (x : Vector Byte 8) : (s.withX x).record = s.record := rfl
@[simp] theorem withX_out (x : Vector Byte 8) : (s.withX x).out = s.out := rfl

@[simp] theorem withPc_mem (pc : Word9) : (s.withPc pc).mem = s.mem := rfl
@[simp] theorem withPc_x (pc : Word9) : (s.withPc pc).x = s.x := rfl
@[simp] theorem withPc_pc (pc : Word9) : (s.withPc pc).pc = pc := rfl
@[simp] theorem withPc_sp (pc : Word9) : (s.withPc pc).sp = s.sp := rfl
@[simp] theorem withPc_flags (pc : Word9) : (s.withPc pc).flags = s.flags := rfl
@[simp] theorem withPc_status (pc : Word9) : (s.withPc pc).status = s.status := rfl
@[simp] theorem withPc_ir (pc : Word9) : (s.withPc pc).ir = s.ir := rfl
@[simp] theorem withPc_record (pc : Word9) : (s.withPc pc).record = s.record := rfl
@[simp] theorem withPc_out (pc : Word9) : (s.withPc pc).out = s.out := rfl

@[simp] theorem withSp_mem (sp : Word9) : (s.withSp sp).mem = s.mem := rfl
@[simp] theorem withSp_x (sp : Word9) : (s.withSp sp).x = s.x := rfl
@[simp] theorem withSp_pc (sp : Word9) : (s.withSp sp).pc = s.pc := rfl
@[simp] theorem withSp_sp (sp : Word9) : (s.withSp sp).sp = sp := rfl
@[simp] theorem withSp_flags (sp : Word9) : (s.withSp sp).flags = s.flags := rfl
@[simp] theorem withSp_status (sp : Word9) : (s.withSp sp).status = s.status := rfl
@[simp] theorem withSp_ir (sp : Word9) : (s.withSp sp).ir = s.ir := rfl
@[simp] theorem withSp_record (sp : Word9) : (s.withSp sp).record = s.record := rfl
@[simp] theorem withSp_out (sp : Word9) : (s.withSp sp).out = s.out := rfl

@[simp] theorem withFlags_mem (f : Flags) : (s.withFlags f).mem = s.mem := rfl
@[simp] theorem withFlags_x (f : Flags) : (s.withFlags f).x = s.x := rfl
@[simp] theorem withFlags_pc (f : Flags) : (s.withFlags f).pc = s.pc := rfl
@[simp] theorem withFlags_sp (f : Flags) : (s.withFlags f).sp = s.sp := rfl
@[simp] theorem withFlags_flags (f : Flags) : (s.withFlags f).flags = f := rfl
@[simp] theorem withFlags_status (f : Flags) : (s.withFlags f).status = s.status := rfl
@[simp] theorem withFlags_ir (f : Flags) : (s.withFlags f).ir = s.ir := rfl
@[simp] theorem withFlags_record (f : Flags) : (s.withFlags f).record = s.record := rfl
@[simp] theorem withFlags_out (f : Flags) : (s.withFlags f).out = s.out := rfl

@[simp] theorem withStatus_mem (st : Status) : (s.withStatus st).mem = s.mem := rfl
@[simp] theorem withStatus_x (st : Status) : (s.withStatus st).x = s.x := rfl
@[simp] theorem withStatus_pc (st : Status) : (s.withStatus st).pc = s.pc := rfl
@[simp] theorem withStatus_sp (st : Status) : (s.withStatus st).sp = s.sp := rfl
@[simp] theorem withStatus_flags (st : Status) : (s.withStatus st).flags = s.flags := rfl
@[simp] theorem withStatus_status (st : Status) : (s.withStatus st).status = st := rfl
@[simp] theorem withStatus_ir (st : Status) : (s.withStatus st).ir = s.ir := rfl
@[simp] theorem withStatus_record (st : Status) : (s.withStatus st).record = s.record := rfl
@[simp] theorem withStatus_out (st : Status) : (s.withStatus st).out = s.out := rfl

@[simp] theorem withIr_mem (op : Byte) : (s.withIr op).mem = s.mem := rfl
@[simp] theorem withIr_x (op : Byte) : (s.withIr op).x = s.x := rfl
@[simp] theorem withIr_pc (op : Byte) : (s.withIr op).pc = s.pc := rfl
@[simp] theorem withIr_sp (op : Byte) : (s.withIr op).sp = s.sp := rfl
@[simp] theorem withIr_flags (op : Byte) : (s.withIr op).flags = s.flags := rfl
@[simp] theorem withIr_status (op : Byte) : (s.withIr op).status = s.status := rfl
@[simp] theorem withIr_ir (op : Byte) : (s.withIr op).ir = op := rfl
@[simp] theorem withIr_record (op : Byte) : (s.withIr op).record = s.record := rfl
@[simp] theorem withIr_out (op : Byte) : (s.withIr op).out = s.out := rfl

@[simp] theorem withRecord_mem (r : FaultRecord) : (s.withRecord r).mem = s.mem := rfl
@[simp] theorem withRecord_x (r : FaultRecord) : (s.withRecord r).x = s.x := rfl
@[simp] theorem withRecord_pc (r : FaultRecord) : (s.withRecord r).pc = s.pc := rfl
@[simp] theorem withRecord_sp (r : FaultRecord) : (s.withRecord r).sp = s.sp := rfl
@[simp] theorem withRecord_flags (r : FaultRecord) : (s.withRecord r).flags = s.flags := rfl
@[simp] theorem withRecord_status (r : FaultRecord) : (s.withRecord r).status = s.status := rfl
@[simp] theorem withRecord_ir (r : FaultRecord) : (s.withRecord r).ir = s.ir := rfl
@[simp] theorem withRecord_record (r : FaultRecord) : (s.withRecord r).record = r := rfl
@[simp] theorem withRecord_out (r : FaultRecord) : (s.withRecord r).out = s.out := rfl

@[simp] theorem withOut_mem (o : List Byte) : (s.withOut o).mem = s.mem := rfl
@[simp] theorem withOut_x (o : List Byte) : (s.withOut o).x = s.x := rfl
@[simp] theorem withOut_pc (o : List Byte) : (s.withOut o).pc = s.pc := rfl
@[simp] theorem withOut_sp (o : List Byte) : (s.withOut o).sp = s.sp := rfl
@[simp] theorem withOut_flags (o : List Byte) : (s.withOut o).flags = s.flags := rfl
@[simp] theorem withOut_status (o : List Byte) : (s.withOut o).status = s.status := rfl
@[simp] theorem withOut_ir (o : List Byte) : (s.withOut o).ir = s.ir := rfl
@[simp] theorem withOut_record (o : List Byte) : (s.withOut o).record = s.record := rfl
@[simp] theorem withOut_out (o : List Byte) : (s.withOut o).out = o := rfl

/-- A state is its nine fields: two states that agree on all of them are equal. -/
theorem ext_fields {s t : State} (hmem : s.mem = t.mem) (hx : s.x = t.x) (hpc : s.pc = t.pc) (hsp : s.sp = t.sp)
    (hflags : s.flags = t.flags) (hstatus : s.status = t.status) (hir : s.ir = t.ir)
    (hrecord : s.record = t.record) (hout : s.out = t.out) : s = t := by
  cases s; cases t; simp_all

end Sys2Proof.Machine.State
end

