-- ==== Sys2Proof/Laws/Memory.lean ====
section
/-! SUPPORT. The laws of memory: a read after a write, and the canonical form, which every memory operation
keeps and which makes equal memories equal lists. -/

namespace Sys2Proof.Machine
namespace Memory

@[simp] theorem read_nil (a : Nat) : read [] a = Config.unlistedByte := rfl

@[simp] theorem read_entry (k : Nat) (v : Byte) (rest : Memory) (a : Nat) :
    read ((k, v) :: rest) a = if a = k then v else read rest a := rfl

/-- Below the first address of a canonical list every address reads as unlisted. -/
theorem read_of_lt {lo : Nat} {m : Memory} (h : wfFrom lo m = true) {a : Nat} (ha : a < lo) :
    read m a = Config.unlistedByte := by
  induction m generalizing lo with
  | nil => rfl
  | cons p rest ih =>
    obtain ⟨k, v⟩ := p
    simp only [wfFrom, Bool.and_eq_true, decide_eq_true_eq, bne_iff_ne] at h
    rw [read_entry, if_neg (by omega)]
    exact ih h.2 (by omega)

theorem wfFrom_mono {lo lo' : Nat} (hlo : lo' ≤ lo) {m : Memory} (h : wfFrom lo m = true) : wfFrom lo' m = true := by
  cases m with
  | nil => rfl
  | cons p rest =>
    simp only [wfFrom, Bool.and_eq_true, decide_eq_true_eq, bne_iff_ne] at h ⊢
    exact ⟨⟨⟨by omega, h.1.1.2⟩, h.1.2⟩, h.2⟩

theorem wfFrom_cons {lo a : Nat} {v : Byte} {rest : Memory} (hlo : lo ≤ a) (ha : a < Config.memSize)
    (h : wfFrom (a + 1) rest = true) : wfFrom lo (cons a v rest) = true := by
  unfold cons
  split
  · exact wfFrom_mono (by omega) h
  · simp_all [wfFrom]

/-- A write keeps the canonical form. -/
theorem wfFrom_write {lo a : Nat} {v : Byte} {m : Memory} (hlo : lo ≤ a) (ha : a < Config.memSize)
    (h : wfFrom lo m = true) : wfFrom lo (write m a v) = true := by
  induction m generalizing lo with
  | nil => exact wfFrom_cons hlo ha rfl
  | cons p rest ih =>
    obtain ⟨k, w⟩ := p
    have h' := h
    simp only [wfFrom, Bool.and_eq_true, decide_eq_true_eq, bne_iff_ne] at h'
    obtain ⟨⟨⟨hk, hkm⟩, hw⟩, hrest⟩ := h'
    unfold write
    split
    · exact wfFrom_cons hlo ha (by simp [wfFrom, *])
    · split
      · subst_vars; exact wfFrom_cons hlo ha hrest
      · simp only [wfFrom, Bool.and_eq_true, decide_eq_true_eq, bne_iff_ne]
        exact ⟨⟨⟨hk, hkm⟩, hw⟩, ih (by omega) hrest⟩

theorem wf_write {m : Memory} (h : m.wf = true) {a : Nat} (ha : a < Config.memSize) (v : Byte) :
    (m.write a v).wf = true := wfFrom_write (Nat.zero_le a) ha h

/-- Storing bytes keeps the canonical form, wherever they start. -/
theorem wf_storeBytes {m : Memory} (h : m.wf = true) (base : Nat) (bs : List Byte) :
    (m.storeBytes base bs).wf = true := by
  induction bs generalizing m base with
  | nil => exact h
  | cons v rest ih =>
    unfold storeBytes
    split
    · exact ih (wf_write h ‹_› v) _
    · exact ih h _

theorem read_cons_same (a : Nat) (v : Byte) {rest : Memory} (h : wfFrom (a + 1) rest = true) :
    read (cons a v rest) a = v := by
  unfold cons
  split
  · simp [read_of_lt h (Nat.lt_succ_self a), *]
  · simp

theorem read_cons_ne {a b : Nat} (hb : b ≠ a) (v : Byte) (rest : Memory) : read (cons a v rest) b = read rest b := by
  unfold cons
  split
  · rfl
  · simp [hb]

/-- A read after a write to the same address gives the value written (R63). -/
theorem read_write_same {m : Memory} (hwf : m.wf = true) (a : Nat) (v : Byte) : read (write m a v) a = v := by
  suffices key : ∀ lo, wfFrom lo m = true → read (write m a v) a = v from key 0 hwf
  clear hwf
  intro lo h
  induction m generalizing lo with
  | nil => exact read_cons_same a v rfl
  | cons p rest ih =>
    obtain ⟨k, w⟩ := p
    have h' := h
    simp only [wfFrom, Bool.and_eq_true, decide_eq_true_eq, bne_iff_ne] at h'
    obtain ⟨⟨⟨hk, hkm⟩, hw⟩, hrest⟩ := h'
    unfold write
    split
    · exact read_cons_same a v (by simp [wfFrom, *])
    · split
      · subst_vars; exact read_cons_same _ v hrest
      · rw [read_entry, if_neg ‹_›]; exact ih _ hrest

/-- A write leaves every other address alone, in any list. -/
theorem read_write_ne {a b : Nat} (hb : b ≠ a) (v : Byte) (m : Memory) : read (write m a v) b = read m b := by
  induction m with
  | nil => exact read_cons_ne hb v []
  | cons p rest ih =>
    obtain ⟨k, w⟩ := p
    unfold write
    split
    · exact read_cons_ne hb v _
    · split
      · subst_vars; rw [read_cons_ne hb, read_entry, if_neg hb]
      · simp [ih]

/-- Bytes stored from `base` leave every address below alone. -/
theorem read_storeBytes_of_lt {a base : Nat} (h : a < base) (m : Memory) (bs : List Byte) :
    read (storeBytes m base bs) a = read m a := by
  induction bs generalizing m base with
  | nil => rfl
  | cons v rest ih =>
    unfold storeBytes
    rw [ih (by omega)]
    split
    · exact read_write_ne (by omega) v m
    · rfl

/-- Canonical memories that read alike are the same list. -/
theorem eq_of_read_eq {lo : Nat} {m n : Memory} (hm : wfFrom lo m = true) (hn : wfFrom lo n = true)
    (h : ∀ a, read m a = read n a) : m = n := by
  induction m generalizing lo n with
  | nil =>
    cases n with
    | nil => rfl
    | cons p rest =>
      obtain ⟨k, v⟩ := p
      simp only [wfFrom, Bool.and_eq_true, decide_eq_true_eq, bne_iff_ne] at hn
      have := h k
      simp only [read_nil, read_entry, ite_true] at this
      exact absurd this.symm hn.1.2
  | cons p rest ih =>
    obtain ⟨k, v⟩ := p
    have hm' := hm
    simp only [wfFrom, Bool.and_eq_true, decide_eq_true_eq, bne_iff_ne] at hm'
    cases n with
    | nil =>
      have := h k
      simp only [read_nil, read_entry, ite_true] at this
      exact absurd this hm'.1.2
    | cons q rest' =>
      obtain ⟨l, w⟩ := q
      have hn' := hn
      simp only [wfFrom, Bool.and_eq_true, decide_eq_true_eq, bne_iff_ne] at hn'
      have hkl : k = l := by
        rcases Nat.lt_trichotomy k l with hlt | heq | hlt
        · have := h k
          rw [read_entry, if_pos rfl, read_entry, if_neg (by omega), read_of_lt hn'.2 (by omega)] at this
          exact absurd this hm'.1.2
        · exact heq
        · have := h l
          rw [read_entry, if_neg (by omega), read_of_lt hm'.2 (by omega), read_entry, if_pos rfl] at this
          exact absurd this.symm hn'.1.2
      subst hkl
      have hvw : v = w := by simpa using h k
      subst hvw
      have : rest = rest' := ih hm'.2 hn'.2 (fun a => by
        by_cases ha : a = k
        · subst ha; rw [read_of_lt hm'.2 (by omega), read_of_lt hn'.2 (by omega)]
        · simpa [ha] using h a)
      rw [this]

end Memory

/-- The memory of the reset state is canonical. -/
theorem reset_mem_wf : State.reset.mem.wf = true := rfl

end Sys2Proof.Machine
end

