-- ==== Sys2Proof/Laws/Ops.lean ====
section
/-! SUPPORT. One spec lemma for each shared operation: what it answers when its argument is in range, and what it
raises when it is not. Provers cite these instead of unfolding the operation. -/

namespace Sys2Proof.Machine

/-! ## The checked-computation type -/

@[simp] theorem checked_bind_ok {α β : Type} (a : α) (f : α → Checked β) : (Except.ok a >>= f : Checked β) = f a := rfl

@[simp] theorem checked_bind_error {α β : Type} (r : Raised) (f : α → Checked β) :
    (Except.error r >>= f : Checked β) = .error r := rfl

@[simp] theorem checked_pure {α : Type} (a : α) : (pure a : Checked α) = .ok a := rfl

/-- A sequence that completes: both parts complete. -/
theorem checked_bind_eq_ok {α β : Type} {x : Checked α} {f : α → Checked β} {b : β} :
    (x >>= f) = .ok b ↔ ∃ a, x = .ok a ∧ f a = .ok b := by
  cases x <;> simp

/-- A sequence that raises: the first part raises, or it completes and the rest raises. -/
theorem checked_bind_eq_error {α β : Type} {x : Checked α} {f : α → Checked β} {r : Raised} :
    (x >>= f) = .error r ↔ x = .error r ∨ ∃ a, x = .ok a ∧ f a = .error r := by
  cases x <;> simp

/-! ## Memory access -/

/-- The address check in plain numbers. -/
theorem memIndex_def (a : Int) :
    memIndex a = if 0 ≤ a ∧ a ≤ 255 then .ok a.toNat else .error ⟨.memBounds, a⟩ := by
  cases a with
  | ofNat n =>
    show (if n < 256 then _ else _) = _
    by_cases h : n < 256
    · rw [if_pos h, if_pos (by simp only [Int.ofNat_eq_natCast]; omega)]; rfl
    · rw [if_neg h, if_neg (by simp only [Int.ofNat_eq_natCast]; omega)]
  | negSucc k => rw [if_neg (by omega)]; rfl

theorem memIndex_nat {n : Nat} (h : n ≤ 255) : memIndex (n : Int) = .ok n := by
  rw [memIndex_def, if_pos (by omega), Int.toNat_natCast]

theorem memIndex_error {a : Int} (h : a < 0 ∨ 255 < a) : memIndex a = .error ⟨.memBounds, a⟩ := by
  rw [memIndex_def, if_neg (by omega)]

theorem memIndex_eq_ok {a : Int} {n : Nat} : memIndex a = .ok n ↔ a = n ∧ n ≤ 255 := by
  rw [memIndex_def]
  split
  · simp only [Except.ok.injEq]; omega
  · simp only [reduceCtorEq, false_iff]; omega

theorem memIndex_eq_error {a : Int} {r : Raised} :
    memIndex a = .error r ↔ (a < 0 ∨ 255 < a) ∧ r = ⟨.memBounds, a⟩ := by
  rw [memIndex_def]
  split
  · simp only [reduceCtorEq, false_iff]; omega
  · simp only [Except.error.injEq, eq_comm (a := r)]
    exact ⟨fun h => ⟨by omega, h⟩, fun h => h.2⟩

theorem readMem_nat (s : State) {n : Nat} (h : n ≤ 255) : readMem s (n : Int) = .ok (s.memByte n) := by
  simp [readMem, memIndex_nat h]

theorem readMem_error (s : State) {a : Int} (h : a < 0 ∨ 255 < a) : readMem s a = .error ⟨.memBounds, a⟩ := by
  simp [readMem, memIndex_error h]

theorem readMem_eq_ok {s : State} {a : Int} {v : Byte} :
    readMem s a = .ok v ↔ ∃ n : Nat, a = n ∧ n ≤ 255 ∧ v = s.memByte n := by
  simp only [readMem, checked_bind_eq_ok, memIndex_eq_ok, checked_pure, Except.ok.injEq]
  exact ⟨fun ⟨n, ⟨h1, h2⟩, h3⟩ => ⟨n, h1, h2, h3.symm⟩, fun ⟨n, h1, h2, h3⟩ => ⟨n, ⟨h1, h2⟩, h3.symm⟩⟩

theorem readMem_eq_error {s : State} {a : Int} {r : Raised} :
    readMem s a = .error r ↔ (a < 0 ∨ 255 < a) ∧ r = ⟨.memBounds, a⟩ := by
  simp [readMem, checked_bind_eq_error, memIndex_eq_error]

/-! ## Registers -/

@[simp] theorem setReg_mem (s : State) (r : Fin 8) (v : Byte) : (s.setReg r v).mem = s.mem := rfl
@[simp] theorem setReg_pc (s : State) (r : Fin 8) (v : Byte) : (s.setReg r v).pc = s.pc := rfl
@[simp] theorem setReg_sp (s : State) (r : Fin 8) (v : Byte) : (s.setReg r v).sp = s.sp := rfl
@[simp] theorem setReg_flags (s : State) (r : Fin 8) (v : Byte) : (s.setReg r v).flags = s.flags := rfl
@[simp] theorem setReg_status (s : State) (r : Fin 8) (v : Byte) : (s.setReg r v).status = s.status := rfl
@[simp] theorem setReg_ir (s : State) (r : Fin 8) (v : Byte) : (s.setReg r v).ir = s.ir := rfl
@[simp] theorem setReg_record (s : State) (r : Fin 8) (v : Byte) : (s.setReg r v).record = s.record := rfl
@[simp] theorem setReg_out (s : State) (r : Fin 8) (v : Byte) : (s.setReg r v).out = s.out := rfl

theorem setReg_x (s : State) (r : Fin 8) (v : Byte) : (s.setReg r v).x = s.x.set r v := rfl

@[simp] theorem reg_setReg_same (s : State) (r : Fin 8) (v : Byte) : (s.setReg r v).reg r = v := by
  simp [State.reg, State.setReg]

theorem reg_setReg_ne (s : State) {r q : Fin 8} (h : q ≠ r) (v : Byte) : (s.setReg r v).reg q = s.reg q := by
  have : (r : Nat) ≠ q := fun e => h (Fin.ext e.symm)
  simp [State.reg, State.setReg, Vector.getElem_set_ne, this]

@[simp] theorem regByte_toNat (r : Fin 8) : (regByte r).toNat = r.val := by
  simp only [regByte, BitVec.toNat_ofNat]; omega

theorem regByte_injective {r q : Fin 8} (h : regByte r = regByte q) : r = q := by
  have := congrArg BitVec.toNat h
  simp only [regByte_toNat] at this
  exact Fin.ext this

@[simp] theorem regIndex_regByte (r : Fin 8) : regIndex (regByte r) = .ok r := by
  simp [regIndex]

theorem regIndex_error {i : Byte} (h : 7 < i.toNat) : regIndex i = .error ⟨.regBounds, (i.toNat : Int)⟩ := by
  simp only [regIndex]
  rw [dif_neg (by simp only [Config.regCount]; omega)]

theorem regIndex_eq_ok {i : Byte} {r : Fin 8} : regIndex i = .ok r ↔ i = regByte r := by
  constructor
  · intro h
    simp only [regIndex] at h
    split at h
    · cases h; exact BitVec.eq_of_toNat_eq (by simp)
    · cases h
  · rintro rfl; simp

theorem regIndex_eq_error {i : Byte} {e : Raised} :
    regIndex i = .error e ↔ 7 < i.toNat ∧ e = ⟨.regBounds, (i.toNat : Int)⟩ := by
  simp only [regIndex, Config.regCount]
  split
  · simp only [reduceCtorEq, false_iff]; omega
  · simp only [Except.error.injEq, eq_comm (a := e)]
    exact ⟨fun h => ⟨by omega, h⟩, fun h => h.2⟩

@[simp] theorem readReg_regByte (s : State) (r : Fin 8) : readReg s (regByte r) = .ok (s.reg r) := by
  simp [readReg]

theorem readReg_error (s : State) {i : Byte} (h : 7 < i.toNat) :
    readReg s i = .error ⟨.regBounds, (i.toNat : Int)⟩ := by
  simp [readReg, regIndex_error h]

@[simp] theorem writeReg_regByte (s : State) (r : Fin 8) (v : Byte) : writeReg s (regByte r) v = .ok (s.setReg r v) := by
  simp [writeReg]

theorem writeReg_error (s : State) {i : Byte} (h : 7 < i.toNat) (v : Byte) :
    writeReg s i v = .error ⟨.regBounds, (i.toNat : Int)⟩ := by
  simp [writeReg, regIndex_error h]

theorem readReg_eq_ok {s : State} {i v : Byte} : readReg s i = .ok v ↔ ∃ r : Fin 8, i = regByte r ∧ v = s.reg r := by
  simp only [readReg, checked_bind_eq_ok, regIndex_eq_ok, checked_pure, Except.ok.injEq, eq_comm (a := v)]

theorem readReg_eq_error {s : State} {i : Byte} {e : Raised} :
    readReg s i = .error e ↔ 7 < i.toNat ∧ e = ⟨.regBounds, (i.toNat : Int)⟩ := by
  simp [readReg, checked_bind_eq_error, regIndex_eq_error]

theorem writeReg_eq_ok {s t : State} {i v : Byte} :
    writeReg s i v = .ok t ↔ ∃ r : Fin 8, i = regByte r ∧ t = s.setReg r v := by
  simp only [writeReg, checked_bind_eq_ok, regIndex_eq_ok, checked_pure, Except.ok.injEq, eq_comm (a := t)]

theorem writeReg_eq_error {s : State} {i v : Byte} {e : Raised} :
    writeReg s i v = .error e ↔ 7 < i.toNat ∧ e = ⟨.regBounds, (i.toNat : Int)⟩ := by
  simp [writeReg, checked_bind_eq_error, regIndex_eq_error]

/-! ## Operand bytes -/

theorem operandA_ok (s : State) (h : s.pc.toNat ≤ 254) : operandA s = .ok (s.memByte (s.pc.toNat + 1)) := by
  have := readMem_nat s (n := s.pc.toNat + 1) (by omega)
  simpa [operandA] using this

theorem operandA_error (s : State) (h : 255 ≤ s.pc.toNat) :
    operandA s = .error ⟨.memBounds, (s.pc.toNat : Int) + 1⟩ := readMem_error s (by omega)

theorem operandB_ok (s : State) (h : s.pc.toNat ≤ 253) : operandB s = .ok (s.memByte (s.pc.toNat + 2)) := by
  have := readMem_nat s (n := s.pc.toNat + 2) (by omega)
  simpa [operandB] using this

theorem operandB_error (s : State) (h : 254 ≤ s.pc.toNat) :
    operandB s = .error ⟨.memBounds, (s.pc.toNat : Int) + 2⟩ := readMem_error s (by omega)

theorem operandA_eq_ok {s : State} {a : Byte} :
    operandA s = .ok a ↔ s.pc.toNat ≤ 254 ∧ a = s.memByte (s.pc.toNat + 1) := by
  by_cases h : s.pc.toNat ≤ 254
  · simp [operandA_ok s h, h, eq_comm]
  · simp [operandA_error s (by omega), h]

theorem operandB_eq_ok {s : State} {b : Byte} :
    operandB s = .ok b ↔ s.pc.toNat ≤ 253 ∧ b = s.memByte (s.pc.toNat + 2) := by
  by_cases h : s.pc.toNat ≤ 253
  · simp [operandB_ok s h, h, eq_comm]
  · simp [operandB_error s (by omega), h]

theorem sourceA_ok (s : State) (h : s.pc.toNat ≤ 254) {r : Fin 8} (hr : s.memByte (s.pc.toNat + 1) = regByte r) :
    sourceA s = .ok (s.reg r) := by
  simp [sourceA, operandA_ok s h, hr]

/-! ## Stack -/

theorem push_ok (s : State) (v : Byte) {a : Nat} (h : s.sp.toNat = a + 1) (ha : a ≤ 255) :
    push s v = .ok ((s.withMem (s.mem.write a v)).withSp (s.sp - 1#9)) := by
  have e : (s.sp.toNat : Int) - 1 = (a : Int) := by omega
  simp [push, writeMem, e, memIndex_nat ha]

theorem push_error (s : State) (v : Byte) (h : s.sp.toNat = 0 ∨ 256 < s.sp.toNat) :
    push s v = .error ⟨.memBounds, (s.sp.toNat : Int) - 1⟩ := by
  simp [push, writeMem, memIndex_error (a := (s.sp.toNat : Int) - 1) (by omega)]

theorem push_eq_ok {s t : State} {v : Byte} :
    push s v = .ok t ↔ ∃ a : Nat, s.sp.toNat = a + 1 ∧ a ≤ 255 ∧
      t = (s.withMem (s.mem.write a v)).withSp (s.sp - 1#9) := by
  constructor
  · intro h
    by_cases hs : s.sp.toNat = 0 ∨ 256 < s.sp.toNat
    · rw [push_error s v hs] at h; cases h
    · refine ⟨s.sp.toNat - 1, by omega, by omega, ?_⟩
      rw [push_ok s v (a := s.sp.toNat - 1) (by omega) (by omega)] at h
      cases h; rfl
  · rintro ⟨a, h1, h2, rfl⟩; exact push_ok s v h1 h2

theorem pop_ok (s : State) (h : s.sp.toNat ≤ 255) :
    pop s = .ok (s.memByte s.sp.toNat, s.withSp (s.sp + 1#9)) := by
  simp [pop, readMem_nat s h]

theorem pop_error (s : State) (h : 255 < s.sp.toNat) : pop s = .error ⟨.memBounds, (s.sp.toNat : Int)⟩ := by
  simp [pop, readMem_error s (a := (s.sp.toNat : Int)) (by omega)]

theorem pop_eq_ok {s : State} {p : Byte × State} :
    pop s = .ok p ↔ s.sp.toNat ≤ 255 ∧ p = (s.memByte s.sp.toNat, s.withSp (s.sp + 1#9)) := by
  by_cases h : s.sp.toNat ≤ 255
  · simp [pop_ok s h, h, eq_comm]
  · simp [pop_error s (by omega), h]

/-! ## Output, flags and fault entry -/

@[simp] theorem emit_mem (s : State) (v : Byte) : (s.emit v).mem = s.mem := rfl
@[simp] theorem emit_x (s : State) (v : Byte) : (s.emit v).x = s.x := rfl
@[simp] theorem emit_pc (s : State) (v : Byte) : (s.emit v).pc = s.pc := rfl
@[simp] theorem emit_sp (s : State) (v : Byte) : (s.emit v).sp = s.sp := rfl
@[simp] theorem emit_flags (s : State) (v : Byte) : (s.emit v).flags = s.flags := rfl
@[simp] theorem emit_status (s : State) (v : Byte) : (s.emit v).status = s.status := rfl
@[simp] theorem emit_ir (s : State) (v : Byte) : (s.emit v).ir = s.ir := rfl
@[simp] theorem emit_record (s : State) (v : Byte) : (s.emit v).record = s.record := rfl
@[simp] theorem emit_out (s : State) (v : Byte) : (s.emit v).out = s.out ++ [v] := rfl

/-- Setting a flag clears none (R30). -/
theorem flags_set_keeps (f : Flags) (n : Flag) :
    (f.e = true → (f.set n).e = true) ∧ (f.l = true → (f.set n).l = true) ∧ (f.g = true → (f.set n).g = true) := by
  cases n <;> simp [Flags.set]

@[simp] theorem takeFault_mem (s : State) (op : Byte) (r : Raised) : (takeFault s op r).mem = s.mem := rfl
@[simp] theorem takeFault_x (s : State) (op : Byte) (r : Raised) : (takeFault s op r).x = s.x := rfl
@[simp] theorem takeFault_pc (s : State) (op : Byte) (r : Raised) : (takeFault s op r).pc = s.pc := rfl
@[simp] theorem takeFault_sp (s : State) (op : Byte) (r : Raised) : (takeFault s op r).sp = s.sp := rfl
@[simp] theorem takeFault_flags (s : State) (op : Byte) (r : Raised) : (takeFault s op r).flags = s.flags := rfl
@[simp] theorem takeFault_status (s : State) (op : Byte) (r : Raised) : (takeFault s op r).status = .faulted := rfl
@[simp] theorem takeFault_ir (s : State) (op : Byte) (r : Raised) : (takeFault s op r).ir = s.ir := rfl
@[simp] theorem takeFault_record (s : State) (op : Byte) (r : Raised) :
    (takeFault s op r).record = ⟨r.cause, s.pc, op, r.info⟩ := rfl
@[simp] theorem takeFault_out (s : State) (op : Byte) (r : Raised) : (takeFault s op r).out = s.out := rfl

@[simp] theorem conclude_ok (s t : State) : conclude s (.ok t) = .next t := rfl

@[simp] theorem conclude_error (s : State) (r : Raised) : conclude s (.error r) = .next (takeFault s s.ir r) := rfl

/-! ## A byte of memory and a register, seen through an update of another field -/

@[simp] theorem State.withMem_memByte (s : State) (m : Memory) (a : Nat) : (s.withMem m).memByte a = m.read a := rfl
@[simp] theorem State.withX_memByte (s : State) (x : Vector Byte 8) (a : Nat) : (s.withX x).memByte a = s.memByte a := rfl
@[simp] theorem State.withPc_memByte (s : State) (pc : Word9) (a : Nat) : (s.withPc pc).memByte a = s.memByte a := rfl
@[simp] theorem State.withSp_memByte (s : State) (sp : Word9) (a : Nat) : (s.withSp sp).memByte a = s.memByte a := rfl
@[simp] theorem State.withFlags_memByte (s : State) (f : Flags) (a : Nat) : (s.withFlags f).memByte a = s.memByte a := rfl
@[simp] theorem State.withStatus_memByte (s : State) (st : Status) (a : Nat) : (s.withStatus st).memByte a = s.memByte a := rfl
@[simp] theorem State.withIr_memByte (s : State) (op : Byte) (a : Nat) : (s.withIr op).memByte a = s.memByte a := rfl
@[simp] theorem State.withRecord_memByte (s : State) (r : FaultRecord) (a : Nat) : (s.withRecord r).memByte a = s.memByte a := rfl
@[simp] theorem State.withOut_memByte (s : State) (o : List Byte) (a : Nat) : (s.withOut o).memByte a = s.memByte a := rfl
@[simp] theorem setReg_memByte (s : State) (r : Fin 8) (v : Byte) (a : Nat) : (s.setReg r v).memByte a = s.memByte a := rfl
@[simp] theorem emit_memByte (s : State) (v : Byte) (a : Nat) : (s.emit v).memByte a = s.memByte a := rfl
@[simp] theorem takeFault_memByte (s : State) (op : Byte) (r : Raised) (a : Nat) :
    (takeFault s op r).memByte a = s.memByte a := rfl

@[simp] theorem State.withMem_reg (s : State) (m : Memory) (q : Fin 8) : (s.withMem m).reg q = s.reg q := rfl
@[simp] theorem State.withPc_reg (s : State) (pc : Word9) (q : Fin 8) : (s.withPc pc).reg q = s.reg q := rfl
@[simp] theorem State.withSp_reg (s : State) (sp : Word9) (q : Fin 8) : (s.withSp sp).reg q = s.reg q := rfl
@[simp] theorem State.withFlags_reg (s : State) (f : Flags) (q : Fin 8) : (s.withFlags f).reg q = s.reg q := rfl
@[simp] theorem State.withStatus_reg (s : State) (st : Status) (q : Fin 8) : (s.withStatus st).reg q = s.reg q := rfl
@[simp] theorem State.withIr_reg (s : State) (op : Byte) (q : Fin 8) : (s.withIr op).reg q = s.reg q := rfl
@[simp] theorem State.withRecord_reg (s : State) (r : FaultRecord) (q : Fin 8) : (s.withRecord r).reg q = s.reg q := rfl
@[simp] theorem State.withOut_reg (s : State) (o : List Byte) (q : Fin 8) : (s.withOut o).reg q = s.reg q := rfl
@[simp] theorem emit_reg (s : State) (v : Byte) (q : Fin 8) : (s.emit v).reg q = s.reg q := rfl
@[simp] theorem takeFault_reg (s : State) (op : Byte) (r : Raised) (q : Fin 8) : (takeFault s op r).reg q = s.reg q := rfl

end Sys2Proof.Machine
end

