-- ==== Sys2Proof/Laws/Exec.lean ====
section
/-! SUPPORT. What a handler can do, said once: `exec` is `conclude` over a handler, and a handler that completes
has one of the effects below. Every frame and invariant follows from these by cases. -/

namespace Sys2Proof.Machine

/-- The checked computation inside each meaning. -/
def handler : Instr → State → Checked State
  | .hlt, s => .ok (s.withStatus .halted)
  | .ldi, s => do writeReg s (← operandA s) (← operandB s)
  | .prn, s => do pure (s.emit (← sourceA s))
  | .add, s => aluHandler .add s
  | .mul, s => aluHandler .mul s
  | .cmp, s => aluHandler .cmp s
  | .push, s => do push s (← sourceA s)
  | .pop, s => do
    let a ← operandA s
    let p ← pop s
    writeReg p.2 a p.1
  | .call, s => do
    let ret ← returnAddress s
    jumpThroughA (← push s ret)
  | .ret, s => do
    let p ← pop s
    pure (p.2.withPc (zext9 p.1))
  | .jmp, s => jumpThroughA s
  | .jeq, s => if s.flags.e then jumpThroughA s else .ok (skipOperand s)
  | .jne, s => if s.flags.e then .ok (skipOperand s) else jumpThroughA s

theorem exec_eq_conclude (i : Instr) (s : State) : exec i s = conclude s (handler i s) := by
  cases i <;> rfl

/-- Every meaning answers a next state: the handler's, or the state with the fault taken. -/
theorem exec_cases (i : Instr) (s : State) :
    (∃ t, handler i s = .ok t ∧ exec i s = .next t) ∨
    (∃ r, handler i s = .error r ∧ exec i s = .next (takeFault s s.ir r)) := by
  rw [exec_eq_conclude]
  cases h : handler i s with
  | ok t => exact .inl ⟨t, rfl, rfl⟩
  | error r => exact .inr ⟨r, rfl, rfl⟩

/-- The state after a push of `v` to the cell `a`. -/
abbrev pushed (s : State) (a : Nat) (v : Byte) : State := (s.withMem (s.mem.write a v)).withSp (s.sp - 1#9)

/-- Everything a completing handler can do to the state it starts from. -/
inductive Effect (s : State) : Instr → State → Prop where
  | regWrite {i : Instr} (hi : i = .ldi ∨ i = .add ∨ i = .mul) (r : Fin 8) (v : Byte) (hr : s.byteA = regByte r) :
      Effect s i (s.setReg r v)
  | flag (n : Flag) : Effect s .cmp (s.withFlags (s.flags.set n))
  | emit (r : Fin 8) (hr : s.byteA = regByte r) : Effect s .prn (s.emit (s.reg r))
  | push (r : Fin 8) (a : Nat) (hr : s.byteA = regByte r) (ha : s.sp.toNat = a + 1) (hm : a ≤ 255) :
      Effect s .push (pushed s a (s.reg r))
  | pop (r : Fin 8) (hr : s.byteA = regByte r) (hs : s.sp.toNat ≤ 255) :
      Effect s .pop ((s.withSp (s.sp + 1#9)).setReg r (s.memByte s.sp.toNat))
  | call (r : Fin 8) (a : Nat) (hp : s.pc.toNat ≤ 253) (ha : s.sp.toNat = a + 1) (hm : a ≤ 255)
      (hr : (pushed s a (BitVec.ofNat 8 (s.pc.toNat + 2))).byteA = regByte r) :
      Effect s .call ((pushed s a (BitVec.ofNat 8 (s.pc.toNat + 2))).withPc (zext9 (s.reg r)))
  | ret (hs : s.sp.toNat ≤ 255) : Effect s .ret ((s.withSp (s.sp + 1#9)).withPc (zext9 (s.memByte s.sp.toNat)))
  | jump {i : Instr} (hi : i = .jmp ∨ (i = .jeq ∧ s.flags.e = true) ∨ (i = .jne ∧ s.flags.e = false)) (r : Fin 8)
      (hr : s.byteA = regByte r) : Effect s i (s.withPc (zext9 (s.reg r)))
  | skip {i : Instr} (hi : (i = .jeq ∧ s.flags.e = false) ∨ (i = .jne ∧ s.flags.e = true)) :
      Effect s i (s.withPc (s.pc + 2#9))
  | halt : Effect s .hlt (s.withStatus .halted)

theorem jumpThroughA_eq_ok {s t : State} : jumpThroughA s = .ok t ↔
    s.pc.toNat ≤ 254 ∧ ∃ r : Fin 8, s.byteA = regByte r ∧ t = s.withPc (zext9 (s.reg r)) := by
  simp only [jumpThroughA, sourceA, checked_bind_eq_ok, operandA_eq_ok, readReg_eq_ok, checked_pure, Except.ok.injEq]
  constructor
  · rintro ⟨v, ⟨b, ⟨hp, rfl⟩, r, hr, rfl⟩, rfl⟩
    exact ⟨hp, r, hr, rfl⟩
  · rintro ⟨hp, r, hr, rfl⟩
    exact ⟨_, ⟨_, ⟨hp, rfl⟩, r, hr, rfl⟩, rfl⟩

theorem returnAddress_eq_ok {s : State} {v : Byte} : returnAddress s = .ok v ↔
    s.pc.toNat ≤ 253 ∧ v = BitVec.ofNat 8 (s.pc.toNat + 2) := by
  simp only [returnAddress, checked_bind_eq_ok, memIndex_eq_ok, checked_pure, Except.ok.injEq]
  constructor
  · rintro ⟨n, ⟨h1, h2⟩, rfl⟩
    have : n = s.pc.toNat + 2 := by omega
    subst this
    exact ⟨by omega, rfl⟩
  · rintro ⟨h, rfl⟩
    exact ⟨s.pc.toNat + 2, ⟨by omega, by omega⟩, rfl⟩

/-- The inversion of the handlers: a handler that completes has one of the effects above. -/
theorem effect_of_handler {i : Instr} {s t : State} (h : handler i s = .ok t) : Effect s i t := by
  cases i with
  | hlt => simp only [handler, Except.ok.injEq] at h; subst h; exact .halt
  | ldi =>
    simp only [handler, checked_bind_eq_ok, operandA_eq_ok, operandB_eq_ok, writeReg_eq_ok] at h
    obtain ⟨a, ⟨-, rfl⟩, b, -, r, hr, rfl⟩ := h
    exact .regWrite (by simp) r b hr
  | prn =>
    simp only [handler, sourceA, checked_bind_eq_ok, operandA_eq_ok, readReg_eq_ok, checked_pure, Except.ok.injEq] at h
    obtain ⟨v, ⟨b, ⟨-, rfl⟩, r, hr, rfl⟩, rfl⟩ := h
    exact .emit r hr
  | add | mul =>
    simp only [handler, aluHandler, alu, checked_bind_eq_ok, operandA_eq_ok, writeReg_eq_ok] at h
    obtain ⟨a, ⟨-, rfl⟩, b, -, u, -, v, -, r, hr, rfl⟩ := h
    exact .regWrite (by simp) r _ hr
  | cmp =>
    simp only [handler, aluHandler, alu, checked_bind_eq_ok, checked_pure, Except.ok.injEq] at h
    obtain ⟨a, -, b, -, u, -, v, -, rfl⟩ := h
    exact .flag _
  | push =>
    simp only [handler, sourceA, checked_bind_eq_ok, operandA_eq_ok, readReg_eq_ok, push_eq_ok] at h
    obtain ⟨v, ⟨b, ⟨-, rfl⟩, r, hr, rfl⟩, a, ha, hm, rfl⟩ := h
    exact .push r a hr ha hm
  | pop =>
    simp only [handler, checked_bind_eq_ok, operandA_eq_ok, pop_eq_ok, writeReg_eq_ok] at h
    obtain ⟨a, ⟨-, rfl⟩, p, ⟨hs, rfl⟩, r, hr, rfl⟩ := h
    exact .pop r hr hs
  | call =>
    simp only [handler, checked_bind_eq_ok, returnAddress_eq_ok, push_eq_ok, jumpThroughA_eq_ok] at h
    obtain ⟨v, ⟨hp, rfl⟩, u, ⟨a, ha, hm, rfl⟩, -, r, hr, rfl⟩ := h
    exact .call r a hp ha hm hr
  | ret =>
    simp only [handler, checked_bind_eq_ok, pop_eq_ok, checked_pure, Except.ok.injEq] at h
    obtain ⟨p, ⟨hs, rfl⟩, rfl⟩ := h
    exact .ret hs
  | jmp =>
    simp only [handler, jumpThroughA_eq_ok] at h
    obtain ⟨-, r, hr, rfl⟩ := h
    exact .jump (by simp) r hr
  | jeq | jne =>
    simp only [handler] at h
    split at h
    all_goals
      first
        | (simp only [Except.ok.injEq, skipOperand] at h; subst h; exact .skip (by simp_all))
        | (simp only [jumpThroughA_eq_ok] at h
           obtain ⟨-, r, hr, rfl⟩ := h
           exact .jump (by simp_all) r hr)

/-- Everything a handler can raise (R181, R182): an operand byte or a return address outside memory, a stack
access outside memory, or an index byte above 7. -/
inductive Raises (s : State) : Instr → Raised → Prop where
  | operandA {i : Instr} (hi : i ≠ .hlt ∧ i ≠ .ret ∧ i ≠ .call)
      (hj : (i = .jeq → s.flags.e = true) ∧ (i = .jne → s.flags.e = false)) (hp : 255 ≤ s.pc.toNat) :
      Raises s i ⟨.memBounds, (s.pc.toNat : Int) + 1⟩
  | operandB {i : Instr} (hi : i = .ldi ∨ i = .add ∨ i = .mul ∨ i = .cmp) (hp : s.pc.toNat = 254) :
      Raises s i ⟨.memBounds, (s.pc.toNat : Int) + 2⟩
  | returnAddress (hp : 254 ≤ s.pc.toNat) : Raises s .call ⟨.memBounds, (s.pc.toNat : Int) + 2⟩
  | push {i : Instr} (hi : i = .push ∨ i = .call) (hs : s.sp.toNat = 0 ∨ 256 < s.sp.toNat) :
      Raises s i ⟨.memBounds, (s.sp.toNat : Int) - 1⟩
  | pop {i : Instr} (hi : i = .pop ∨ i = .ret) (hs : 255 < s.sp.toNat) : Raises s i ⟨.memBounds, (s.sp.toNat : Int)⟩
  | index {i : Instr} (v : Byte) (hv : 7 < v.toNat) : Raises s i ⟨.regBounds, (v.toNat : Int)⟩

theorem operandA_eq_error {s : State} {r : Raised} :
    operandA s = .error r ↔ 255 ≤ s.pc.toNat ∧ r = ⟨.memBounds, (s.pc.toNat : Int) + 1⟩ := by
  rw [operandA, readMem_eq_error]
  exact and_congr_left' (by omega)

theorem operandB_eq_error {s : State} {r : Raised} :
    operandB s = .error r ↔ 254 ≤ s.pc.toNat ∧ r = ⟨.memBounds, (s.pc.toNat : Int) + 2⟩ := by
  rw [operandB, readMem_eq_error]
  exact and_congr_left' (by omega)

theorem sourceA_eq_error {s : State} {r : Raised} : sourceA s = .error r ↔
    (255 ≤ s.pc.toNat ∧ r = ⟨.memBounds, (s.pc.toNat : Int) + 1⟩) ∨
    (s.pc.toNat ≤ 254 ∧ 7 < s.byteA.toNat ∧ r = ⟨.regBounds, (s.byteA.toNat : Int)⟩) := by
  simp only [sourceA, checked_bind_eq_error, operandA_eq_error, operandA_eq_ok, readReg_eq_error]
  refine or_congr_right ⟨?_, ?_⟩
  · rintro ⟨a, ⟨hp, rfl⟩, hv, rfl⟩; exact ⟨hp, hv, rfl⟩
  · rintro ⟨hp, hv, rfl⟩; exact ⟨_, ⟨hp, rfl⟩, hv, rfl⟩

theorem push_eq_error {s : State} {v : Byte} {r : Raised} : push s v = .error r ↔
    (s.sp.toNat = 0 ∨ 256 < s.sp.toNat) ∧ r = ⟨.memBounds, (s.sp.toNat : Int) - 1⟩ := by
  by_cases h : s.sp.toNat = 0 ∨ 256 < s.sp.toNat
  · rw [push_error s v h]
    exact ⟨fun e => ⟨h, by cases e; rfl⟩, fun e => by rw [e.2]⟩
  · simp [push_ok s v (a := s.sp.toNat - 1) (by omega) (by omega), h]

theorem pop_eq_error {s : State} {r : Raised} :
    pop s = .error r ↔ 255 < s.sp.toNat ∧ r = ⟨.memBounds, (s.sp.toNat : Int)⟩ := by
  by_cases h : 255 < s.sp.toNat
  · simp [pop_error s h, h, eq_comm]
  · simp [pop_ok s (by omega), h]

theorem returnAddress_eq_error {s : State} {r : Raised} :
    returnAddress s = .error r ↔ 254 ≤ s.pc.toNat ∧ r = ⟨.memBounds, (s.pc.toNat : Int) + 2⟩ := by
  simp only [returnAddress, checked_bind_eq_error, memIndex_eq_error, checked_pure, reduceCtorEq, and_false, exists_false,
    or_false]
  exact and_congr_left' (by omega)

theorem jumpThroughA_eq_error {s : State} {r : Raised} : jumpThroughA s = .error r ↔ sourceA s = .error r := by
  simp [jumpThroughA, checked_bind_eq_error]

/-- What reading `a` and the register it names can raise, in an instruction that reads them. -/
theorem raises_of_sourceA {s : State} {i : Instr} {r : Raised} (hi : i ≠ .hlt ∧ i ≠ .ret ∧ i ≠ .call)
    (hj : (i = .jeq → s.flags.e = true) ∧ (i = .jne → s.flags.e = false)) (h : sourceA s = .error r) : Raises s i r := by
  rcases sourceA_eq_error.mp h with ⟨hp, rfl⟩ | ⟨-, hv, rfl⟩
  · exact .operandA hi hj hp
  · exact .index _ hv

/-- The inversion of a raised fault: a handler that raises, raises one of the faults above. -/
theorem raises_of_handler {i : Instr} {s : State} {r : Raised} (h : handler i s = .error r) : Raises s i r := by
  cases i with
  | hlt => simp [handler] at h
  | ldi =>
    simp only [handler, checked_bind_eq_error, operandA_eq_error, operandA_eq_ok, operandB_eq_error, writeReg_eq_error] at h
    rcases h with ⟨hp, rfl⟩ | ⟨a, ⟨hp, rfl⟩, ⟨hq, rfl⟩ | ⟨b, -, hv, rfl⟩⟩
    · exact .operandA (by simp) (by simp) hp
    · exact .operandB (by simp) (by omega)
    · exact .index _ hv
  | prn =>
    simp only [handler, checked_bind_eq_error, checked_pure, reduceCtorEq, and_false, exists_false, or_false] at h
    exact raises_of_sourceA (by simp) (by simp) h
  | add | mul | cmp =>
    simp only [handler, aluHandler, alu, checked_bind_eq_error, operandA_eq_error, operandA_eq_ok, operandB_eq_error,
      readReg_eq_error, writeReg_eq_error, checked_pure, reduceCtorEq, and_false, exists_false, or_false] at h
    rcases h with ⟨hp, rfl⟩ | ⟨a, ⟨hp, rfl⟩, h⟩
    · exact .operandA (by simp) (by simp) hp
    rcases h with ⟨hq, rfl⟩ | ⟨b, -, h⟩
    · exact .operandB (by simp) (by omega)
    rcases h with ⟨hv, rfl⟩ | ⟨u, -, h⟩
    · exact .index _ hv
    first
      | exact h.2 ▸ .index _ h.1
      | (rcases h with ⟨hv, rfl⟩ | ⟨w, -, hv, rfl⟩ <;> exact .index _ hv)
  | push =>
    simp only [handler, checked_bind_eq_error, push_eq_error] at h
    rcases h with h | ⟨v, -, hs, rfl⟩
    · exact raises_of_sourceA (by simp) (by simp) h
    · exact .push (by simp) hs
  | pop =>
    simp only [handler, checked_bind_eq_error, operandA_eq_error, operandA_eq_ok, pop_eq_error, writeReg_eq_error] at h
    rcases h with ⟨hp, rfl⟩ | ⟨a, -, ⟨hs, rfl⟩ | ⟨p, -, hv, rfl⟩⟩
    · exact .operandA (by simp) (by simp) hp
    · exact .pop (by simp) hs
    · exact .index _ hv
  | call =>
    simp only [handler, checked_bind_eq_error, returnAddress_eq_error, returnAddress_eq_ok, push_eq_error, push_eq_ok,
      jumpThroughA_eq_error] at h
    rcases h with ⟨hp, rfl⟩ | ⟨v, ⟨hp, rfl⟩, ⟨hs, rfl⟩ | ⟨t, ⟨a, -, -, rfl⟩, h⟩⟩
    · exact .returnAddress hp
    · exact .push (by simp) hs
    · rcases sourceA_eq_error.mp h with ⟨hq, -⟩ | ⟨-, hv, rfl⟩
      · exact absurd hq (by simp only [State.withSp_pc, State.withMem_pc]; omega)
      · exact .index _ hv
  | ret =>
    simp only [handler, checked_bind_eq_error, pop_eq_error, checked_pure, reduceCtorEq, and_false, exists_false,
      or_false] at h
    obtain ⟨hs, rfl⟩ := h
    exact .pop (by simp) hs
  | jmp =>
    simp only [handler, jumpThroughA_eq_error] at h
    exact raises_of_sourceA (by simp) (by simp) h
  | jeq | jne =>
    simp only [handler] at h
    split at h
    all_goals
      first
        | cases h
        | exact raises_of_sourceA (by simp) (by simp_all) (jumpThroughA_eq_error.mp h)

end Sys2Proof.Machine
end

