-- ==== Sys2Proof/Laws/PerInstr.lean ====
section
/-! SUPPORT. Statements made once per instruction, about the instruction as syntax. -/

namespace Sys2Proof.Laws.OpcodeFields

/-- The fields of the opcode byte agree with the instruction (R75, R94): the byte decodes back, bits 7:6 are the
operand count and bit 4 is the sets-PC bit. -/
def Statement (i : Instr) : Prop :=
  decodeOpcode (opcodeOf i) = some i ∧ operandCount (opcodeOf i) = i.format.operands.length ∧
    setsPc (opcodeOf i) = i.setsPcItself

theorem hlt : Statement .hlt := ⟨rfl, rfl, rfl⟩
theorem ldi : Statement .ldi := ⟨rfl, rfl, rfl⟩
theorem prn : Statement .prn := ⟨rfl, rfl, rfl⟩
theorem add : Statement .add := ⟨rfl, rfl, rfl⟩
theorem mul : Statement .mul := ⟨rfl, rfl, rfl⟩
theorem push : Statement .push := ⟨rfl, rfl, rfl⟩
theorem pop : Statement .pop := ⟨rfl, rfl, rfl⟩
theorem call : Statement .call := ⟨rfl, rfl, rfl⟩
theorem ret : Statement .ret := ⟨rfl, rfl, rfl⟩
theorem cmp : Statement .cmp := ⟨rfl, rfl, rfl⟩
theorem jmp : Statement .jmp := ⟨rfl, rfl, rfl⟩
theorem jeq : Statement .jeq := ⟨rfl, rfl, rfl⟩
theorem jne : Statement .jne := ⟨rfl, rfl, rfl⟩

end Sys2Proof.Laws.OpcodeFields
end

