-- ==== Sys2Proof/Laws/Step.lean ====
section
/-! SUPPORT. What a step can do, said once: a fault that is taken from the state before the cycle, or an effect of
the fetched instruction followed by the engine's PC advance. -/

namespace Sys2Proof.Machine

/-- The state in which the handler of a cycle runs: `ir` holds the fetched opcode. -/
abbrev fetched (s : State) : State := s.withIr (s.memByte s.pc.toNat)

theorem fetch_ok (s : State) (h : s.pc.toNat ≤ 255) : fetch s = .ok (s.memByte s.pc.toNat) := readMem_nat s h

theorem fetch_error (s : State) (h : 255 < s.pc.toNat) : fetch s = .error ⟨.memBounds, (s.pc.toNat : Int)⟩ :=
  readMem_error s (by omega)

/-- Outside memory the step takes the fetch fault (R91). -/
theorem step_outside {s : State} (hr : s.status = .running) (h : 255 < s.pc.toNat) :
    step s = .next (takeFault s 0#8 ⟨.memBounds, (s.pc.toNat : Int)⟩) := by
  simp [step, engineStep, hr, cycle, fetch_error s h]

/-- In memory the step runs the opcode at the PC. -/
theorem step_inside {s : State} {op : Byte} (h : s.Fetches op) : step s = runOpcode decodeOpcode s op := by
  obtain ⟨hr, hp, rfl⟩ := h
  simp [step, engineStep, hr, cycle, fetch_ok s hp]

/-- A cycle whose handler raised leaves the state before it with the fault taken (R12, R183). -/
theorem completeCycle_fault (s : State) (op : Byte) (r : Raised) :
    completeCycle s op (takeFault (s.withIr op) op r) = takeFault s op r := by
  simp only [completeCycle, takeFault_status, ite_true]
  exact State.ext_fields rfl rfl rfl rfl rfl rfl rfl rfl rfl

/-- A step whose handler raised takes that fault from the state before the cycle. -/
theorem step_raises {s : State} {i : Instr} {r : Raised} (hf : s.Fetches (opcodeOf i))
    (h : handler i (s.withIr (opcodeOf i)) = .error r) : step s = .next (takeFault s (opcodeOf i) r) := by
  rw [step_inside hf]
  simp only [runOpcode, decodeOpcode_eq_some.mpr rfl, exec_eq_conclude, h, conclude_error, State.withIr_ir,
    completeCycle_fault]

/-- A step whose handler completed has its effect, then the PC advance. -/
theorem step_completes {s t : State} {i : Instr} (hf : s.Fetches (opcodeOf i)) (ht : t.status ≠ .faulted)
    (h : handler i (s.withIr (opcodeOf i)) = .ok t) : step s = .next (advance (opcodeOf i) s.pc t) := by
  rw [step_inside hf]
  simp only [runOpcode, decodeOpcode_eq_some.mpr rfl, exec_eq_conclude, h, conclude_ok, completeCycle, if_neg ht]

/-- The status after a completed handler is the status before it, or HALTED. -/
theorem Effect.status {s t : State} {i : Instr} (h : Effect s i t) :
    t.status = s.status ∨ (i = .hlt ∧ t.status = .halted) := by
  cases h <;> simp

/-- The inversion of a step: where it answers a next state, the engine was running, and the state is one of three:
the fetch fault taken, UNKNOWN_OPCODE or a handler's fault taken, or an effect and the advance. -/
theorem step_cases {s t : State} (h : step s = .next t) : s.status = .running ∧
    ((255 < s.pc.toNat ∧ t = takeFault s 0#8 ⟨.memBounds, (s.pc.toNat : Int)⟩) ∨
     (s.pc.toNat ≤ 255 ∧ decodeOpcode (s.memByte s.pc.toNat) = none ∧
       t = takeFault s (s.memByte s.pc.toNat) ⟨.unknownOpcode, ((s.memByte s.pc.toNat).toNat : Int)⟩) ∨
     (∃ i r, s.Fetches (opcodeOf i) ∧ handler i (s.withIr (opcodeOf i)) = .error r ∧
       t = takeFault s (opcodeOf i) r) ∨
     (∃ i u, s.Fetches (opcodeOf i) ∧ handler i (s.withIr (opcodeOf i)) = .ok u ∧ u.status ≠ .faulted ∧
       Effect (s.withIr (opcodeOf i)) i u ∧ t = advance (opcodeOf i) s.pc u)) := by
  have hr : s.status = .running := by
    cases hs : s.status <;> simp [step, engineStep, hs] at h ⊢
  refine ⟨hr, ?_⟩
  by_cases hp : 255 < s.pc.toNat
  · rw [step_outside hr hp] at h
    cases h; exact .inl ⟨hp, rfl⟩
  · right
    have hp' : s.pc.toNat ≤ 255 := by omega
    cases hd : decodeOpcode (s.memByte s.pc.toNat) with
    | none =>
      rw [step_inside ⟨hr, hp', rfl⟩] at h
      simp only [runOpcode, hd] at h
      cases h; exact .inl ⟨hp', rfl, rfl⟩
    | some i =>
      right
      have hf : s.Fetches (opcodeOf i) := ⟨hr, hp', decodeOpcode_eq_some.mp hd⟩
      cases hh : handler i (s.withIr (opcodeOf i)) with
      | error r =>
        rw [step_raises hf hh] at h
        cases h; exact .inl ⟨i, r, hf, hh, rfl⟩
      | ok u =>
        have he := effect_of_handler hh
        have hu : u.status ≠ .faulted := by
          rcases he.status with e | ⟨-, e⟩ <;> rw [e] <;> simp [hr]
        rw [step_completes hf hu hh] at h
        cases h; exact .inr ⟨i, u, hf, hh, hu, he, rfl⟩

/-- The advance changes the PC alone. -/
theorem advance_eq (op : Byte) (pc : Word9) (t : State) : ∃ pc', advance op pc t = t.withPc pc' := by
  unfold advance
  split
  · exact ⟨t.pc, State.ext_fields rfl rfl rfl rfl rfl rfl rfl rfl rfl⟩
  · exact ⟨_, rfl⟩

end Sys2Proof.Machine
end

