-- ==== Sys2Proof/Tests/Slice0.lean ====
section
/-! SUPPORT. The model's own tests: the spec's words and vectors (spec/95_test_vectors.md), the smoke test of
WellFormed, and one witness for the hypotheses of each statement. Expected values come from the spec. -/

namespace Sys2Proof.Tests
open Sys2Proof.Machine

/-- The state an outcome carries. -/
def nextOf : Host.Outcome State Fault Refusal → Option State
  | .next t    => some t
  | .fault _   => none
  | .refused _ => none

theorem exists_next {o : Host.Outcome State Fault Refusal} {p : State → Prop} [DecidablePred p]
    (h : ((nextOf o).any fun t => decide (p t)) = true) : ∃ t, o = .next t ∧ p t := by
  cases o with
  | next t => exact ⟨t, rfl, by simpa [nextOf] using h⟩
  | fault _ => cases h
  | refused _ => cases h

/-- A running machine: PC, SP, memory cells (rising addresses, no zero), and the first three registers. -/
def mk (pc sp : Nat) (mem : Memory) (x0 x1 x2 : Byte) : State where
  mem    := mem
  x      := #v[x0, x1, x2, 12#8, 33#8, 0#8, 0#8, 0#8]
  pc     := BitVec.ofNat 9 pc
  sp     := BitVec.ofNat 9 sp
  flags  := ⟨false, false, false⟩
  status := .running
  ir     := 0#8
  record := .reset
  out    := []

/-- The same machine with E = 1. -/
def mkE (pc sp : Nat) (mem : Memory) (x0 x1 x2 : Byte) : State := (mk pc sp mem x0 x1 x2).withFlags ⟨true, false, false⟩

/-- One step, and what the test looks at. -/
def after {α : Type} (s : State) (f : State → α) : Option α := (nextOf (step s)).map f

/-- The fault record a step leaves, with the status and SP. -/
def faultOf (t : State) : FaultCause × Nat × Byte × Int × Status × Nat :=
  (t.record.cause, t.record.pc.toNat, t.record.opcode, t.record.info, t.status, t.sp.toNat)

/-! ## Decoding: the words of spec/30_encoding.md R74, written out -/

theorem test_decode_hlt : decodeTableWord 8 0b00000001 = some .hlt := by decide
theorem test_decode_ldi : decodeTableWord 24 0b00001000_00000000_10000010 = some .ldi := by decide
theorem test_decode_prn : decodeTableWord 16 0b00000000_01000111 = some .prn := by decide
theorem test_decode_add : decodeTableWord 24 0b00000001_00000000_10100000 = some .add := by decide
theorem test_decode_mul : decodeTableWord 24 0b00000001_00000000_10100010 = some .mul := by decide
theorem test_decode_push : decodeTableWord 16 0b00000010_01000101 = some .push := by decide
theorem test_decode_pop : decodeTableWord 16 0b00000010_01000110 = some .pop := by decide
theorem test_decode_call : decodeTableWord 16 0b00000001_01010000 = some .call := by decide
theorem test_decode_ret : decodeTableWord 8 0b00010001 = some .ret := by decide
theorem test_decode_cmp : decodeTableWord 24 0b00000001_00000000_10100111 = some .cmp := by decide
theorem test_decode_jmp : decodeTableWord 16 0b00000011_01010100 = some .jmp := by decide
theorem test_decode_jeq : decodeTableWord 16 0b00000010_01010101 = some .jeq := by decide
theorem test_decode_jne : decodeTableWord 16 0b00000011_01010110 = some .jne := by decide

/-- Section 2.1: NOP, LD, ST, SUB, DIV, INT, IRET and JLT of LS-8, a count of 3, and 0xFF are illegal. -/
theorem test_decode_illegal : ([0x00#8, 0x02#8, 0x83#8, 0x84#8, 0xA1#8, 0xA3#8, 0x52#8, 0x13#8, 0x58#8, 0xC0#8, 0xFF#8]).map
    decodeOpcode = List.replicate 11 none := by decide

theorem test_decode_line : decodeBytes [0xA2#8, 0#8, 1#8, 0x47#8] = .ok (⟨.mul, [0#8, 1#8]⟩, [0x47#8]) := by rfl
theorem test_decode_truncated : decodeBytes [0xA2#8, 0#8] = .error (.missingOperand .mul) := by rfl
theorem test_decode_rejects_by_name : decodeBytes [0x83#8] = .error (.unknownOpcode 0x83#8) := by rfl

/-! ## WellFormed smoke: an ill-formed line for each check -/

theorem test_wellFormed_refuses_missing_operand : Code.WellFormed ⟨.add, [0#8]⟩ = false := by decide
theorem test_wellFormed_refuses_extra_operand : Code.WellFormed ⟨.hlt, [0#8]⟩ = false := by decide
theorem test_assembles_refuses_register_8 : Code.WellFormed ⟨.prn, [8#8]⟩ = true ∧ Code.Assembles ⟨.prn, [8#8]⟩ = false := by
  decide
theorem test_assembles_takes_large_immediate : Code.Assembles ⟨.ldi, [7#8, 255#8]⟩ = true := by decide

/-! ## The vectors of spec/95_test_vectors.md, one step each -/

/-- W1: 250 + 10 = 4. -/
theorem test_add_wraps : after (mk 0 0xF4 [(0, 0xA0#8), (2, 1#8)] 250#8 10#8 0#8) (fun t => (t.reg 0, t.reg 1, t.pc)) =
    some (4#8, 10#8, 3#9) := by decide
/-- ALU-3: register `a` is checked first. -/
theorem test_add_bad_registers : after (mk 0 0xF4 [(0, 0xA0#8), (1, 8#8), (2, 9#8)] 0#8 0#8 0#8) faultOf =
    some (.regBounds, 0, 0xA0#8, 8, .faulted, 0xF4) := by decide
/-- 255 × 255 gives 1. -/
theorem test_mul_low_byte : after (mk 0 0xF4 [(0, 0xA2#8), (2, 1#8)] 255#8 255#8 0#8) (fun t => (t.reg 0, t.pc)) =
    some (1#8, 3#9) := by decide
/-- 20 squared gives 144. -/
theorem test_mul_same_register : after (mk 0 0xF4 [(0, 0xA2#8), (1, 2#8), (2, 2#8)] 0#8 0#8 20#8) (fun t => t.reg 2) =
    some 144#8 := by decide
/-- E before, then 3 against 8: L is set and E is kept. -/
theorem test_cmp_keeps_equal : after (mkE 0 0xF4 [(0, 0xA7#8), (2, 1#8)] 3#8 8#8 0#8) (fun t => (t.flags, t.pc)) =
    some (⟨true, true, false⟩, 3#9) := by decide
/-- 255 against 0 gives G: the comparison is unsigned. -/
theorem test_cmp_unsigned : after (mk 0 0xF4 [(0, 0xA7#8), (2, 1#8)] 255#8 0#8 0#8) (fun t => t.flags) =
    some ⟨false, false, true⟩ := by decide
/-- LDO-2: R7 is not SP. -/
theorem test_ldi_r7 : after (mk 0 0xF4 [(0, 0x82#8), (1, 7#8), (2, 255#8)] 0#8 0#8 0#8) (fun t => (t.reg 7, t.sp, t.pc)) =
    some (255#8, 0xF4#9, 3#9) := by decide
/-- LDO-4: the immediate lies outside memory. -/
theorem test_ldi_at_254 : after (mk 254 0xF4 [(254, 0x82#8)] 0#8 0#8 0#8) faultOf =
    some (.memBounds, 254, 0x82#8, 256, .faulted, 0xF4) := by decide
/-- LDO-6, with an earlier value kept in front. -/
theorem test_prn_appends : after ((mk 0 0xF4 [(0, 0x47#8), (1, 1#8)] 0#8 255#8 0#8).withOut [7#8]) (fun t => (t.out, t.pc)) =
    some ([7#8, 255#8], 2#9) := by decide
/-- LDO-7. -/
theorem test_prn_bad_register : after (mk 0 0xF4 [(0, 0x47#8), (1, 8#8)] 0#8 0#8 0#8) (fun t => (t.out, t.record)) =
    some (([] : List Byte), ⟨.regBounds, 0#9, 0x47#8, 8⟩) := by decide
/-- STK-1. -/
theorem test_push : after (mk 0 0xF4 [(0, 0x45#8), (1, 2#8)] 0#8 0#8 0x2A#8) (fun t => (t.memByte 0xF3, t.sp, t.pc)) =
    some (0x2A#8, 0xF3#9, 2#9) := by decide
/-- STK-2: the address is -1 and SP stays 0. -/
theorem test_push_at_zero : after (mk 4 0 [(4, 0x45#8)] 0#8 0#8 0#8) faultOf =
    some (.memBounds, 4, 0x45#8, -1, .faulted, 0) := by decide
/-- STK-5: SP may hold 256. -/
theorem test_pop_top : after (mk 0 255 [(0, 0x46#8), (255, 9#8)] 0#8 0#8 0#8) (fun t => (t.reg 0, t.sp, t.memByte 255)) =
    some (9#8, 256#9, 9#8) := by decide
/-- STK-7: the fault is precise. -/
theorem test_pop_bad_register : after (mk 0 0xF3 [(0, 0x46#8), (1, 8#8)] 0#8 0#8 0#8) faultOf =
    some (.regBounds, 0, 0x46#8, 8, .faulted, 0xF3) := by decide
/-- DSP-6: HLT at 255 leaves pc = 256 without a fault. -/
theorem test_hlt_at_255 : after (mk 255 0xF4 [(255, 0x01#8)] 0#8 0#8 0#8) (fun t => (t.status, t.pc)) =
    some (.halted, 256#9) := by decide
/-- CTL-2. -/
theorem test_call : after (mk 6 0xF4 [(6, 0x50#8), (7, 1#8)] 0#8 11#8 0#8) (fun t => (t.memByte 0xF3, t.sp, t.pc)) =
    some (8#8, 0xF3#9, 11#9) := by decide
/-- CTL-6: the push overwrites CALL's own operand, so it calls through x[4]. -/
theorem test_call_overwrites_operand : after (mk 2 4 [(2, 0x50#8), (3, 5#8)] 0#8 0#8 0#8) (fun t => (t.memByte 3, t.sp, t.pc)) =
    some (4#8, 3#9, 33#9) := by decide
/-- CTL-7. -/
theorem test_ret : after (mk 0 0xF3 [(0, 0x11#8), (0xF3, 8#8)] 0#8 0#8 0#8) (fun t => (t.pc, t.sp, t.memByte 0xF3)) =
    some (8#9, 0xF4#9, 8#8) := by decide
/-- CTL-8. -/
theorem test_ret_at_256 : after (mk 0 256 [(0, 0x11#8)] 0#8 0#8 0#8) faultOf =
    some (.memBounds, 0, 0x11#8, 256, .faulted, 256) := by decide
/-- CTL-10. -/
theorem test_jmp : after (mk 0 0xF4 [(0, 0x54#8), (1, 3#8)] 0#8 0#8 0#8) (fun t => t.pc) = some 12#9 := by decide
/-- BR-1 and BR-7: taken with E = 1; with E = 0 at 255 it reads no operand and leaves pc = 257. -/
theorem test_jeq_taken : after (mkE 12 0xF4 [(12, 0x55#8), (13, 2#8)] 0#8 0#8 17#8) (fun t => t.pc) = some 17#9 := by decide
theorem test_jeq_at_255 : after (mk 255 0xF4 [(255, 0x55#8)] 0#8 0#8 0#8) (fun t => (t.pc, t.status)) =
    some (257#9, .running) := by decide
/-- BR-3 and BR-4. -/
theorem test_jne_taken : after (mk 18 0xF4 [(18, 0x56#8), (19, 3#8)] 0#8 0#8 0#8) (fun t => t.pc) = some 12#9 := by decide
theorem test_jne_not_taken : after (mkE 18 0xF4 [(18, 0x56#8), (19, 3#8)] 0#8 0#8 0#8) (fun t => t.pc) = some 20#9 := by decide
/-- FLT-3: a fetch at 256 records opcode 0. -/
theorem test_fetch_at_256 : after (mk 256 0xF4 [] 0#8 0#8 0#8) faultOf = some (.memBounds, 256, 0#8, 256, .faulted, 0xF4) := by
  decide
/-- W10: an unknown opcode records itself and the PC. -/
theorem test_unknown_opcode : after (mk 0 0xF4 [(0, 2#8)] 0#8 0#8 0#8) faultOf =
    some (.unknownOpcode, 0, 2#8, 2, .faulted, 0xF4) := by decide
/-- Section 2.7: the FL view. -/
theorem test_fl_view : Flags.flView ⟨true, true, false⟩ = 0x05#8 ∧ Flags.flView ⟨false, false, true⟩ = 0x02#8 := by decide
/-- Stored where `step` fetches, a word is run as the first instruction after reset. -/
theorem test_withFetchWord : after (State.reset.withFetchWord 24 0x080082) (fun t => (t.reg 0, t.pc)) = some (8#8, 3#9) := by
  decide
/-- R82: a comment, a blank line and a line that does not parse are skipped. -/
theorem test_parse_program : parseProgram ['1', '0', ' ', '#', '1', '\n', '\n', 'x', '\n', ' ', '1'] = [2, 1] := by decide

/-! ## Witnesses: a concrete state that meets all hypotheses of each clause of each statement -/

theorem witness_ResetValues : (255 : Nat) ≤ 255 := by decide
theorem witness_CodesAndExitStatus : (mk 0 0 [] 0#8 0#8 0#8).status = .running ∧
    ((mk 0 0 [] 0#8 0#8 0#8).withStatus .halted).status = .halted ∧
    ((mk 0 0 [] 0#8 0#8 0#8).withStatus .faulted).status = .faulted := by decide
theorem witness_OpcodeMapMeetsConstraints : ∀ i, opcodeOf i ≠ 0xFF#8 := by intro i; cases i <;> decide
theorem witness_DecodeOfEncode : Code.WellFormed ⟨.ldi, [255#8, 255#8]⟩ = true := by decide
theorem witness_EncodeOfDecode : decodeBytes [0x82#8, 255#8, 255#8] = .ok (⟨.ldi, [255#8, 255#8]⟩, []) := by rfl
/-- A valid opcode map other than R74's: HLT and LDI with other identifier bits. -/
def otherMap : Instr → Byte
  | .hlt => 0b00001111#8
  | .ldi => 0b10001111#8
  | i    => opcodeOf i
theorem witness_AnyValidMapDecodes : OpcodeMapValid otherMap where
  distinct := by intro i j; cases i <;> cases j <;> decide
  count := by intro i; cases i <;> decide
  setpc := by intro i; cases i <;> decide
theorem witness_IllegalOpcodesFault : ((mk 255 0 [(255, 0xFF#8)] 0#8 0#8 0#8).status = .running ∧
    (mk 255 0 [(255, 0xFF#8)] 0#8 0#8 0#8).pc.toNat ≤ 255 ∧
    decodeOpcode ((mk 255 0 [(255, 0xFF#8)] 0#8 0#8 0#8).memByte 255) = none) ∧ operandCount 0xC0#8 = 3 := by decide
theorem witness_StepRunsDecodedInstruction :
    ((mk 255 0 [(255, 1#8)] 0#8 0#8 0#8).Fetches 1#8 ∧ decodeOpcode 1#8 = some .hlt ∧ setsPc 1#8 = false ∧
      ∃ u, exec .hlt ((mk 255 0 [(255, 1#8)] 0#8 0#8 0#8).withIr 1#8) = .next u ∧ u.status ≠ .faulted) ∧
    ((mk 255 0 [(255, 0x55#8)] 0#8 0#8 0#8).Fetches 0x55#8 ∧ decodeOpcode 0x55#8 = some .jeq ∧ setsPc 0x55#8 = true ∧
      ∃ u, exec .jeq ((mk 255 0 [(255, 0x55#8)] 0#8 0#8 0#8).withIr 0x55#8) = .next u ∧ u.status ≠ .faulted) ∧
    ((mk 255 0 [(255, 0x47#8)] 0#8 0#8 0#8).Fetches 0x47#8 ∧ decodeOpcode 0x47#8 = some .prn ∧
      ∃ u, exec .prn ((mk 255 0 [(255, 0x47#8)] 0#8 0#8 0#8).withIr 0x47#8) = .next u ∧ u.status = .faulted) :=
  ⟨⟨by decide, by decide, by decide, exists_next (by decide)⟩, ⟨by decide, by decide, by decide, exists_next (by decide)⟩,
    ⟨by decide, by decide, exists_next (by decide)⟩⟩
theorem witness_EncodedLineIsRun : let s := mk 253 0 [(253, 0xA0#8), (255, 1#8)] 0#8 0#8 0#8
    s.status = .running ∧ Code.WellFormed ⟨.add, [0#8, 1#8]⟩ = true ∧ s.pc.toNat + (encode ⟨.add, [0#8, 1#8]⟩).length ≤ 256 ∧
    (∀ k v, (encode ⟨.add, [0#8, 1#8]⟩)[k]? = some v → s.memByte (s.pc.toNat + k) = v) ∧
    (Code.operands ⟨.add, [0#8, 1#8]⟩)[1]? = some 1#8 := by
  refine ⟨by decide, by decide, by decide, ?_, by decide⟩
  intro k v h
  have hk : k < 3 := (List.getElem?_eq_some_iff.mp h).1
  have : k = 0 ∨ k = 1 ∨ k = 2 := by omega
  rcases this with rfl | rfl | rfl <;> (cases h; decide)
theorem witness_StepOutcomes : (mk 511 0 [] 0#8 0#8 0#8).status = .running ∧
    ((mk 511 0 [] 0#8 0#8 0#8).withStatus .halted).status = .halted ∧
    ((mk 511 0 [] 0#8 0#8 0#8).withStatus .faulted).status = .faulted := by decide
theorem witness_FetchReadsOrFaults : ((mk 256 0 [] 0#8 0#8 0#8).status = .running ∧ 255 < (mk 256 0 [] 0#8 0#8 0#8).pc.toNat) ∧
    (mk 255 0 [(255, 1#8)] 0#8 0#8 0#8).pc.toNat ≤ 255 ∧
    ∃ t, step (mk 255 0 [(255, 1#8)] 0#8 0#8 0#8) = .next t ∧ t.status ≠ .faulted :=
  ⟨by decide, by decide, exists_next (by decide)⟩
theorem witness_PcAdvance :
    ((mk 255 0 [(255, 1#8)] 0#8 0#8 0#8).Fetches 1#8 ∧ (1#8 : Byte).getLsbD 4 = false ∧
      ∃ t, step (mk 255 0 [(255, 1#8)] 0#8 0#8 0#8) = .next t ∧ t.status ≠ .faulted) ∧
    ((mk 255 0 [(255, 0x55#8)] 0#8 0#8 0#8).Fetches 0x55#8 ∧ (0x55#8 : Byte).getLsbD 4 = true ∧
      ∃ t, step (mk 255 0 [(255, 0x55#8)] 0#8 0#8 0#8) = .next t ∧ t.status ≠ .faulted) ∧
    (decodeOpcode 0x47#8 = some .prn ∧ (0x47#8 : Byte).getLsbD 4 = false ∧
      ∃ u, exec .prn (mk 254 0 [(254, 0x47#8)] 0#8 0#8 0#8) = .next u ∧ u.status ≠ .faulted) :=
  ⟨⟨by decide, by decide, exists_next (by decide)⟩, ⟨by decide, by decide, exists_next (by decide)⟩,
    ⟨by decide, by decide, exists_next (by decide)⟩⟩
theorem witness_FaultsArePrecise : (∃ t, step (mk 256 0 [] 0#8 0#8 0#8) = .next t ∧ t.status = .faulted) ∧
    ∃ t, step (mk 255 0 [(255, 0x47#8)] 0#8 0#8 0#8) = .next t ∧ t.status = .faulted :=
  ⟨exists_next (by decide), exists_next (by decide)⟩

/-- A small running state with canonical memory, a legal PC and SP and a clear record meets the invariant. -/
theorem inv_of {s : State} (hr : s.status = .running) (hc : s.record = .reset)
    (h : s.mem.wf = true ∧ s.pc.toNat ≤ 258 ∧ s.sp.toNat ≤ 256) : s.Inv :=
  ⟨h.1, h.2.1, h.2.2, (fun e => by simp [hr] at e), fun _ => hc⟩

theorem witness_MemBoundsCases : (mk 258 0 [] 0#8 0#8 0#8).Inv ∧
    ∃ t, step (mk 258 0 [] 0#8 0#8 0#8) = .next t ∧ t.status = .faulted ∧ t.record.cause = .memBounds :=
  ⟨inv_of rfl rfl (by decide), exists_next (by decide)⟩
/-- One state for each further row of the table: PC 255, PC 254, CALL at 254, PUSH at SP 0, RET at SP 256. -/
theorem witness_MemBoundsCases_rows :
    (∃ t, step (mk 255 0 [(255, 0x47#8)] 0#8 0#8 0#8) = .next t ∧ t.record.cause = .memBounds ∧ t.record.info = 256) ∧
    (∃ t, step (mk 254 0 [(254, 0xA7#8)] 0#8 0#8 0#8) = .next t ∧ t.record.cause = .memBounds ∧ t.record.info = 256) ∧
    (∃ t, step (mk 254 0 [(254, 0x50#8)] 0#8 0#8 0#8) = .next t ∧ t.record.cause = .memBounds ∧ t.record.info = 256) ∧
    (∃ t, step (mk 0 0 [(0, 0x45#8)] 0#8 0#8 0#8) = .next t ∧ t.record.cause = .memBounds ∧ t.record.info = -1) ∧
    (∃ t, step (mk 0 256 [(0, 0x11#8)] 0#8 0#8 0#8) = .next t ∧ t.record.cause = .memBounds ∧ t.record.info = 256) :=
  ⟨exists_next (by decide), exists_next (by decide), exists_next (by decide), exists_next (by decide), exists_next (by decide)⟩

theorem witness_LdiRule : (mk 255 0 [(255, 0x82#8)] 0#8 0#8 0#8).Runs .ldi ∧ (mk 254 0 [(254, 0x82#8)] 0#8 0#8 0#8).Runs .ldi ∧
    ((mk 253 0 [(253, 0x82#8), (254, 8#8)] 0#8 0#8 0#8).Runs .ldi ∧
      7 < (mk 253 0 [(253, 0x82#8), (254, 8#8)] 0#8 0#8 0#8).byteA.toNat) ∧
    ((mk 253 0 [(253, 0x82#8), (254, 7#8)] 0#8 0#8 0#8).Runs .ldi ∧
      (mk 253 0 [(253, 0x82#8), (254, 7#8)] 0#8 0#8 0#8).byteA = regByte 7) := by decide
theorem witness_PrnRule : (mk 255 0 [(255, 0x47#8)] 0#8 0#8 0#8).Runs .prn ∧
    ((mk 254 0 [(254, 0x47#8), (255, 8#8)] 0#8 0#8 0#8).Runs .prn ∧
      7 < (mk 254 0 [(254, 0x47#8), (255, 8#8)] 0#8 0#8 0#8).byteA.toNat) ∧
    ((mk 254 0 [(254, 0x47#8), (255, 7#8)] 0#8 0#8 0#8).Runs .prn ∧
      (mk 254 0 [(254, 0x47#8), (255, 7#8)] 0#8 0#8 0#8).byteA = regByte 7) := by decide

/-- The clauses of a two-register rule at their boundaries, for an opcode byte. -/
def twoRegisterWitness (op : Byte) (i : Instr) : Bool :=
  decide ((mk 255 0 [(255, op)] 0#8 0#8 0#8).Runs i) && decide ((mk 254 0 [(254, op)] 0#8 0#8 0#8).Runs i) &&
  decide ((mk 253 0 [(253, op), (254, 8#8)] 0#8 0#8 0#8).Runs i ∧
    7 < (mk 253 0 [(253, op), (254, 8#8)] 0#8 0#8 0#8).byteA.toNat) &&
  decide ((mk 253 0 [(253, op), (254, 7#8), (255, 8#8)] 0#8 0#8 0#8).Runs i ∧
    (mk 253 0 [(253, op), (254, 7#8), (255, 8#8)] 0#8 0#8 0#8).byteA.toNat ≤ 7 ∧
    7 < (mk 253 0 [(253, op), (254, 7#8), (255, 8#8)] 0#8 0#8 0#8).byteB.toNat) &&
  decide ((mk 253 0 [(253, op), (254, 7#8), (255, 7#8)] 0#8 0#8 0#8).Runs i ∧
    (mk 253 0 [(253, op), (254, 7#8), (255, 7#8)] 0#8 0#8 0#8).byteA = regByte 7 ∧
    (mk 253 0 [(253, op), (254, 7#8), (255, 7#8)] 0#8 0#8 0#8).byteB = regByte 7)
theorem witness_AddRule : twoRegisterWitness 0xA0#8 .add = true := by decide
theorem witness_MulRule : twoRegisterWitness 0xA2#8 .mul = true := by decide
/-- The three comparisons: equal as above (a = b), less and greater with R0 = 254, R1 = 255 and the other way round. -/
theorem witness_CmpRule : twoRegisterWitness 0xA7#8 .cmp = true ∧
    ((mk 253 0 [(253, 0xA7#8), (255, 1#8)] 254#8 255#8 0#8).Runs .cmp ∧
      ((mk 253 0 [(253, 0xA7#8), (255, 1#8)] 254#8 255#8 0#8).reg 0).toNat <
        ((mk 253 0 [(253, 0xA7#8), (255, 1#8)] 254#8 255#8 0#8).reg 1).toNat) ∧
    ((mk 253 0 [(253, 0xA7#8), (255, 1#8)] 255#8 254#8 0#8).Runs .cmp ∧
      ((mk 253 0 [(253, 0xA7#8), (255, 1#8)] 255#8 254#8 0#8).reg 1).toNat <
        ((mk 253 0 [(253, 0xA7#8), (255, 1#8)] 255#8 254#8 0#8).reg 0).toNat) := by decide
/-- The stack at its ends: SP 0, SP 1 and SP 256, with the operand byte at 255. -/
theorem witness_PushRule : (mk 255 0 [(255, 0x45#8)] 0#8 0#8 0#8).Runs .push ∧
    ((mk 254 0 [(254, 0x45#8), (255, 8#8)] 0#8 0#8 0#8).Runs .push ∧
      7 < (mk 254 0 [(254, 0x45#8), (255, 8#8)] 0#8 0#8 0#8).byteA.toNat) ∧
    ((mk 254 0 [(254, 0x45#8), (255, 7#8)] 0#8 0#8 0#8).Runs .push ∧
      (mk 254 0 [(254, 0x45#8), (255, 7#8)] 0#8 0#8 0#8).byteA.toNat ≤ 7 ∧
      (mk 254 0 [(254, 0x45#8), (255, 7#8)] 0#8 0#8 0#8).sp.toNat = 0) ∧
    (∀ sp ∈ [1, 256], (mk 254 sp [(254, 0x45#8), (255, 7#8)] 0#8 0#8 0#8).Runs .push ∧
      (mk 254 sp [(254, 0x45#8), (255, 7#8)] 0#8 0#8 0#8).byteA = regByte 7 ∧
      1 ≤ (mk 254 sp [(254, 0x45#8), (255, 7#8)] 0#8 0#8 0#8).sp.toNat ∧
      (mk 254 sp [(254, 0x45#8), (255, 7#8)] 0#8 0#8 0#8).sp.toNat ≤ 256 ∧
      (mk 254 sp [(254, 0x45#8), (255, 7#8)] 0#8 0#8 0#8).mem.wf = true) := by decide
theorem witness_PopRule : (mk 255 0 [(255, 0x46#8)] 0#8 0#8 0#8).Runs .pop ∧
    ((mk 254 256 [(254, 0x46#8)] 0#8 0#8 0#8).Runs .pop ∧ (mk 254 256 [(254, 0x46#8)] 0#8 0#8 0#8).sp.toNat = 256) ∧
    ((mk 254 255 [(254, 0x46#8), (255, 8#8)] 0#8 0#8 0#8).Runs .pop ∧
      (mk 254 255 [(254, 0x46#8), (255, 8#8)] 0#8 0#8 0#8).sp.toNat ≤ 255 ∧
      7 < (mk 254 255 [(254, 0x46#8), (255, 8#8)] 0#8 0#8 0#8).byteA.toNat) ∧
    ((mk 254 255 [(254, 0x46#8), (255, 7#8)] 0#8 0#8 0#8).Runs .pop ∧
      (mk 254 255 [(254, 0x46#8), (255, 7#8)] 0#8 0#8 0#8).sp.toNat ≤ 255 ∧
      (mk 254 255 [(254, 0x46#8), (255, 7#8)] 0#8 0#8 0#8).byteA = regByte 7) := by decide
theorem witness_HltRule : (mk 255 0 [(255, 1#8)] 0#8 0#8 0#8).Runs .hlt := by decide
/-- CALL at 254 and 255; at 253 with SP 0; with the operand overwritten (SP = PC + 2) and not, in range and above 7. -/
theorem witness_CallRule : (∀ pc ∈ [254, 255], (mk pc 0 [(pc, 0x50#8)] 0#8 0#8 0#8).Runs .call) ∧
    ((mk 253 0 [(253, 0x50#8)] 0#8 0#8 0#8).Runs .call ∧ (mk 253 0 [(253, 0x50#8)] 0#8 0#8 0#8).sp.toNat = 0) ∧
    ((mk 253 255 [(253, 0x50#8)] 0#8 0#8 0#8).Runs .call ∧ (mk 253 255 [(253, 0x50#8)] 0#8 0#8 0#8).mem.wf = true ∧
      (mk 253 255 [(253, 0x50#8)] 0#8 0#8 0#8).sp.toNat - 1 = (mk 253 255 [(253, 0x50#8)] 0#8 0#8 0#8).pc.toNat + 1 ∧
      7 < (BitVec.ofNat 8 ((mk 253 255 [(253, 0x50#8)] 0#8 0#8 0#8).pc.toNat + 2) : Byte).toNat) ∧
    ((mk 5 7 [(5, 0x50#8)] 0#8 0#8 0#8).Runs .call ∧ (mk 5 7 [(5, 0x50#8)] 0#8 0#8 0#8).mem.wf = true ∧
      (mk 5 7 [(5, 0x50#8)] 0#8 0#8 0#8).sp.toNat - 1 = (mk 5 7 [(5, 0x50#8)] 0#8 0#8 0#8).pc.toNat + 1 ∧
      BitVec.ofNat 8 ((mk 5 7 [(5, 0x50#8)] 0#8 0#8 0#8).pc.toNat + 2) = regByte 7) ∧
    (∀ sp ∈ [1, 256], (mk 253 sp [(253, 0x50#8), (254, 7#8)] 0#8 0#8 0#8).Runs .call ∧
      (mk 253 sp [(253, 0x50#8), (254, 7#8)] 0#8 0#8 0#8).mem.wf = true ∧
      ¬((mk 253 sp [(253, 0x50#8), (254, 7#8)] 0#8 0#8 0#8).sp.toNat - 1 = 254) ∧
      (mk 253 sp [(253, 0x50#8), (254, 7#8)] 0#8 0#8 0#8).byteA = regByte 7) := by decide
theorem witness_RetRule : ((mk 255 256 [(255, 0x11#8)] 0#8 0#8 0#8).Runs .ret ∧
      (mk 255 256 [(255, 0x11#8)] 0#8 0#8 0#8).sp.toNat = 256) ∧
    ((mk 255 255 [(255, 0x11#8)] 0#8 0#8 0#8).Runs .ret ∧ (mk 255 255 [(255, 0x11#8)] 0#8 0#8 0#8).sp.toNat ≤ 255) := by decide
theorem witness_JmpRule : (mk 255 0 [(255, 0x54#8)] 0#8 0#8 0#8).Runs .jmp ∧
    ((mk 254 0 [(254, 0x54#8), (255, 8#8)] 0#8 0#8 0#8).Runs .jmp ∧
      7 < (mk 254 0 [(254, 0x54#8), (255, 8#8)] 0#8 0#8 0#8).byteA.toNat) ∧
    ((mk 254 0 [(254, 0x54#8), (255, 7#8)] 0#8 0#8 0#8).Runs .jmp ∧
      (mk 254 0 [(254, 0x54#8), (255, 7#8)] 0#8 0#8 0#8).byteA = regByte 7) := by decide
theorem witness_JeqRule : ((mkE 255 0 [(255, 0x55#8)] 0#8 0#8 0#8).Runs .jeq ∧ (mkE 255 0 [(255, 0x55#8)] 0#8 0#8 0#8).flags.e = true) ∧
    ((mkE 254 0 [(254, 0x55#8), (255, 8#8)] 0#8 0#8 0#8).Runs .jeq ∧
      7 < (mkE 254 0 [(254, 0x55#8), (255, 8#8)] 0#8 0#8 0#8).byteA.toNat) ∧
    ((mkE 254 0 [(254, 0x55#8), (255, 7#8)] 0#8 0#8 0#8).Runs .jeq ∧
      (mkE 254 0 [(254, 0x55#8), (255, 7#8)] 0#8 0#8 0#8).byteA = regByte 7) ∧
    ((mk 255 0 [(255, 0x55#8)] 0#8 0#8 0#8).Runs .jeq ∧ (mk 255 0 [(255, 0x55#8)] 0#8 0#8 0#8).flags.e = false) := by decide
theorem witness_JneRule : ((mk 255 0 [(255, 0x56#8)] 0#8 0#8 0#8).Runs .jne ∧ (mk 255 0 [(255, 0x56#8)] 0#8 0#8 0#8).flags.e = false) ∧
    ((mk 254 0 [(254, 0x56#8), (255, 8#8)] 0#8 0#8 0#8).Runs .jne ∧
      7 < (mk 254 0 [(254, 0x56#8), (255, 8#8)] 0#8 0#8 0#8).byteA.toNat) ∧
    ((mk 254 0 [(254, 0x56#8), (255, 7#8)] 0#8 0#8 0#8).Runs .jne ∧
      (mk 254 0 [(254, 0x56#8), (255, 7#8)] 0#8 0#8 0#8).byteA = regByte 7) ∧
    ((mkE 255 0 [(255, 0x56#8)] 0#8 0#8 0#8).Runs .jne ∧ (mkE 255 0 [(255, 0x56#8)] 0#8 0#8 0#8).flags.e = true) := by decide
/-- Equal, less and greater, with both operands in the last bytes of memory. -/
def aluState (v w : Byte) : State := mk 253 0 [(253, 0xA0#8), (255, 1#8)] v w 0#8
theorem witness_AluCompletes : ((aluState 5#8 5#8).pc.toNat ≤ 253 ∧ (aluState 5#8 5#8).byteA = regByte 0 ∧
      (aluState 5#8 5#8).byteB = regByte 1) ∧
    ((aluState 5#8 5#8).reg 0).toNat = ((aluState 5#8 5#8).reg 1).toNat ∧
    ((aluState 254#8 255#8).reg 0).toNat < ((aluState 254#8 255#8).reg 1).toNat ∧
    ((aluState 255#8 254#8).reg 0).toNat > ((aluState 255#8 254#8).reg 1).toNat := by decide
theorem witness_LoadAndOutputComplete : ((mk 253 0 [(254, 7#8)] 0#8 0#8 0#8).pc.toNat ≤ 253 ∧
      (mk 253 0 [(254, 7#8)] 0#8 0#8 0#8).byteA = regByte 7) ∧
    ((mk 254 0 [(255, 7#8)] 0#8 0#8 0#8).pc.toNat ≤ 254 ∧ (mk 254 0 [(255, 7#8)] 0#8 0#8 0#8).byteA = regByte 7) := by decide
theorem witness_StackCompletes : ∀ p ∈ [(1, 1), (256, 255)], (mk 254 p.1 [(255, 7#8)] 0#8 0#8 0#8).pc.toNat ≤ 254 ∧
    (mk 254 p.1 [(255, 7#8)] 0#8 0#8 0#8).byteA = regByte 7 ∧ 1 ≤ (mk 254 p.1 [(255, 7#8)] 0#8 0#8 0#8).sp.toNat ∧
    (mk 254 p.1 [(255, 7#8)] 0#8 0#8 0#8).sp.toNat ≤ 256 ∧ (mk 254 p.2 [(255, 7#8)] 0#8 0#8 0#8).sp.toNat ≤ 255 := by decide
theorem witness_HaltCallAndReturnComplete : (∀ sp ∈ [1, 256], (mk 253 sp [(254, 7#8)] 0#8 0#8 0#8).pc.toNat ≤ 253 ∧
      1 ≤ (mk 253 sp [(254, 7#8)] 0#8 0#8 0#8).sp.toNat ∧ (mk 253 sp [(254, 7#8)] 0#8 0#8 0#8).sp.toNat ≤ 256 ∧
      (((mk 253 sp [(254, 7#8)] 0#8 0#8 0#8).withMem ((mk 253 sp [(254, 7#8)] 0#8 0#8 0#8).mem.write (sp - 1) 255#8)).withSp
        (BitVec.ofNat 9 (sp - 1))).byteA = regByte 7) ∧
    (mk 255 255 [] 0#8 0#8 0#8).sp.toNat ≤ 255 := by decide
theorem witness_JumpsComplete : (mk 254 0 [(255, 7#8)] 0#8 0#8 0#8).pc.toNat ≤ 254 ∧
    (mk 254 0 [(255, 7#8)] 0#8 0#8 0#8).byteA = regByte 7 ∧ (mk 254 0 [(255, 7#8)] 0#8 0#8 0#8).flags.e = false ∧
    (mkE 254 0 [(255, 7#8)] 0#8 0#8 0#8).byteA = regByte 7 ∧ (mkE 254 0 [(255, 7#8)] 0#8 0#8 0#8).flags.e = true := by decide
/-- Each of the three completes, and a register other than `a` and an address are there to be unchanged. -/
theorem witness_RegisterWriteFrame : ∀ i ∈ [Instr.ldi, .add, .mul],
    ∃ t, exec i (mk 253 0 [(254, 7#8), (255, 1#8)] 0#8 0#8 0#8) = .next t ∧ t.status ≠ .faulted ∧
      (mk 253 0 [(254, 7#8), (255, 1#8)] 0#8 0#8 0#8).byteA ≠ regByte 6 := by
  intro i hi
  simp only [List.mem_cons, List.not_mem_nil, or_false] at hi
  rcases hi with rfl | rfl | rfl <;> exact exists_next (by decide)
theorem witness_NoRegisterWriteFrame : ∀ i ∈ [Instr.prn, .cmp, .hlt, .jmp, .jeq, .jne],
    ∃ t, exec i (mk 253 0 [(254, 7#8), (255, 1#8)] 0#8 0#8 0#8) = .next t ∧ t.status ≠ .faulted := by
  intro i hi
  simp only [List.mem_cons, List.not_mem_nil, or_false] at hi
  rcases hi with rfl | rfl | rfl | rfl | rfl | rfl <;> exact exists_next (by decide)
theorem witness_PopAndReturnFrame : ∀ i ∈ [Instr.pop, .ret],
    ∃ t, exec i (mk 254 255 [(255, 7#8)] 0#8 0#8 0#8) = .next t ∧ t.status ≠ .faulted ∧
      (mk 254 255 [(255, 7#8)] 0#8 0#8 0#8).byteA ≠ regByte 6 := by
  intro i hi
  simp only [List.mem_cons, List.not_mem_nil, or_false] at hi
  rcases hi with rfl | rfl <;> exact exists_next (by decide)
/-- The store happens at SP 1 and at SP 256, the address is none at SP 0, and the fault is taken there. -/
theorem witness_PushAndCallFrame : (∀ i ∈ [Instr.push, .call], ∀ sp ∈ [1, 256],
      ∃ t, exec i (mk 253 sp [(254, 7#8)] 0#8 0#8 0#8) = .next t ∧ t.status ≠ .faulted) ∧
    (∀ i ∈ [Instr.push, .call], ∃ t, exec i (mk 253 0 [(254, 7#8)] 0#8 0#8 0#8) = .next t ∧ t.status = .faulted) ∧
    memIndex 0 = .ok 0 ∧ memIndex 255 = .ok 255 ∧ memIndex (-1) = .error ⟨.memBounds, -1⟩ := by
  refine ⟨?_, ?_, rfl, rfl, rfl⟩
  · intro i hi sp hsp
    simp only [List.mem_cons, List.not_mem_nil, or_false] at hi hsp
    rcases hi with rfl | rfl <;> rcases hsp with rfl | rfl <;> exact exists_next (by decide)
  · intro i hi
    simp only [List.mem_cons, List.not_mem_nil, or_false] at hi
    rcases hi with rfl | rfl <;> exact exists_next (by decide)

theorem reaches_one {s t : State} (h : step s = .next t) : Reaches s t := .step .refl h

theorem witness_FlagsAreSticky : ∃ t, Reaches (mkE 0 0 [(0, 0xA7#8), (2, 1#8)] 3#8 8#8 0#8) t ∧
    (mkE 0 0 [(0, 0xA7#8), (2, 1#8)] 3#8 8#8 0#8).flags.e = true ∧ t.flags.l = true := by
  obtain ⟨t, h, hl⟩ := exists_next (o := step (mkE 0 0 [(0, 0xA7#8), (2, 1#8)] 3#8 8#8 0#8)) (p := fun t => t.flags.l = true)
    (by decide)
  exact ⟨t, reaches_one h, by decide, hl⟩
theorem witness_FlagsWrittenByCmpReadAsE : (∃ t, step (mk 0 0 [(0, 0xA7#8)] 0#8 0#8 0#8) = .next t ∧
      t.flags ≠ (mk 0 0 [(0, 0xA7#8)] 0#8 0#8 0#8).flags) ∧
    (∃ t, step (mk 0 0 [(0, 0x56#8)] 0#8 0#8 0#8) = .next t ∧ (mk 0 0 [(0, 0x56#8)] 0#8 0#8 0#8).Runs .jne ∧
      (⟨false, true, true⟩ : Flags).e = (mk 0 0 [(0, 0x56#8)] 0#8 0#8 0#8).flags.e) :=
  ⟨exists_next (by decide), exists_next (by decide)⟩
theorem witness_StackPointerMovers : (∃ t, step (mk 0 1 [(0, 0x45#8)] 0#8 0#8 0#8) = .next t ∧
      t.sp ≠ (mk 0 1 [(0, 0x45#8)] 0#8 0#8 0#8).sp) ∧
    (∃ t, step (mk 0 255 [(0, 0x46#8)] 0#8 0#8 0#8) = .next t ∧ t.sp ≠ (mk 0 255 [(0, 0x46#8)] 0#8 0#8 0#8).sp) :=
  ⟨exists_next (by decide), exists_next (by decide)⟩
theorem witness_RegisterWriters : ∃ t, step (mk 0 1 [(0, 0x82#8), (1, 7#8), (2, 1#8)] 0#8 0#8 0#8) = .next t ∧
    t.reg 7 ≠ (mk 0 1 [(0, 0x82#8), (1, 7#8), (2, 1#8)] 0#8 0#8 0#8).reg 7 := exists_next (by decide)
theorem witness_MemoryWriters : ∃ t, step (mk 0 256 [(0, 0x45#8)] 1#8 0#8 0#8) = .next t ∧
    t.memByte 255 ≠ (mk 0 256 [(0, 0x45#8)] 1#8 0#8 0#8).memByte 255 := exists_next (by decide)
theorem witness_OutputOnlyGrows : ∃ t, step (mk 0 0 [(0, 0x47#8)] 0#8 0#8 0#8) = .next t ∧ t.out = [0#8] :=
  exists_next (by decide)
theorem witness_InvariantIsKept : (mk 255 256 [(255, 0x55#8)] 0#8 0#8 0#8).Inv ∧
    ∃ t, step (mk 255 256 [(255, 0x55#8)] 0#8 0#8 0#8) = .next t ∧ t.status = .running :=
  ⟨inv_of rfl rfl (by decide), exists_next (by decide)⟩
/-- `LDI R0,1` loaded at 0, and the state its one step reaches. -/
theorem witness_LoadedRunsKeepInvariant : ∃ s, boot [0x82, 0, 1] = .next s ∧ ∃ t, Reaches s t ∧ t.pc = 3#9 := by
  obtain ⟨s, h, hs⟩ := exists_next (o := boot [0x82, 0, 1])
    (p := fun s => ((nextOf (step s)).any fun t => decide (t.pc = 3#9)) = true) (by decide)
  obtain ⟨t, ht, hp⟩ := exists_next hs
  exact ⟨s, h, t, reaches_one ht, hp⟩
theorem witness_NoCycleAfterTheEnd : (mk 255 0 [(255, 1#8)] 0#8 0#8 0#8).Runs .hlt ∧
    (∃ t, step (mk 256 0 [] 0#8 0#8 0#8) = .next t ∧ t.status = .faulted) ∧
    ((mk 0 0 [] 0#8 0#8 0#8).withStatus .halted).status = .halted ∧
    ((mk 0 0 [] 0#8 0#8 0#8).withStatus .faulted).status = .faulted :=
  ⟨by decide, exists_next (by decide), by decide, by decide⟩
/-- W5: `PUSH R2` at 3, then at 8 with R2 cleared `POP R2`. -/
theorem witness_PushPopRoundTrip : ∃ t, step (mk 3 256 [(3, 0x45#8), (4, 2#8)] 0#8 0#8 0x2A#8) = .next t ∧
    (mk 3 256 [(3, 0x45#8), (4, 2#8)] 0#8 0#8 0x2A#8).mem.wf = true ∧
    (mk 3 256 [(3, 0x45#8), (4, 2#8)] 0#8 0#8 0x2A#8).Runs .push ∧
    (mk 3 256 [(3, 0x45#8), (4, 2#8)] 0#8 0#8 0x2A#8).byteA = regByte 2 ∧ t.status ≠ .faulted ∧
    (mk 8 255 [(8, 0x46#8), (9, 2#8), (255, 0x2A#8)] 0#8 0#8 0#8).Runs .pop ∧
    (mk 8 255 [(8, 0x46#8), (9, 2#8), (255, 0x2A#8)] 0#8 0#8 0#8).pc.toNat ≤ 254 ∧
    (mk 8 255 [(8, 0x46#8), (9, 2#8), (255, 0x2A#8)] 0#8 0#8 0#8).byteA = regByte 2 ∧
    (mk 8 255 [(8, 0x46#8), (9, 2#8), (255, 0x2A#8)] 0#8 0#8 0#8).sp = t.sp ∧
    (mk 8 255 [(8, 0x46#8), (9, 2#8), (255, 0x2A#8)] 0#8 0#8 0#8).memByte 255 = t.memByte t.sp.toNat := exists_next (by decide)
/-- W6: CALL at 6, RET at 14. -/
theorem witness_CallReturnPair : ∃ t, step (mk 6 0xF4 [(6, 0x50#8), (7, 1#8)] 0#8 14#8 0#8) = .next t ∧
    (mk 6 0xF4 [(6, 0x50#8), (7, 1#8)] 0#8 14#8 0#8).mem.wf = true ∧
    (mk 6 0xF4 [(6, 0x50#8), (7, 1#8)] 0#8 14#8 0#8).Runs .call ∧ t.status ≠ .faulted ∧
    (mk 14 0xF3 [(14, 0x11#8), (0xF3, 8#8)] 0#8 14#8 0#8).Runs .ret ∧
    (mk 14 0xF3 [(14, 0x11#8), (0xF3, 8#8)] 0#8 14#8 0#8).sp = t.sp ∧
    (mk 14 0xF3 [(14, 0x11#8), (0xF3, 8#8)] 0#8 14#8 0#8).memByte 0xF3 = t.memByte t.sp.toNat := exists_next (by decide)
theorem witness_LoadPutsImage : ((List.replicate 256 255).length ≤ 256 ∧ (∀ v ∈ List.replicate 256 255, v ≤ 255) ∧
      (List.replicate 256 255)[255]? = some 255) ∧ 256 < (List.replicate 257 0).length ∧ (∃ v ∈ [256], 255 < v) := by
  refine ⟨⟨by rw [List.length_replicate], fun v hv => by rw [List.eq_of_mem_replicate hv], ?_⟩, ?_, 256, ?_, by decide⟩
  · rw [List.getElem?_replicate, if_pos (by decide)]
  · rw [List.length_replicate]; decide
  · exact List.mem_cons_self
theorem witness_AnyValidMapRuns : OpcodeMapValid otherMap ∧ (mk 255 0 [(255, 0b00001111#8)] 0#8 0#8 0#8).Fetches (otherMap .hlt) ∧
    ∃ u, exec .hlt ((mk 255 0 [(255, 0b00001111#8)] 0#8 0#8 0#8).withIr (otherMap .hlt)) = .next u ∧ u.status ≠ .faulted :=
  ⟨witness_AnyValidMapDecodes, by decide, exists_next (by decide)⟩

end Sys2Proof.Tests
end

section
/-! PROOFS. What a step can change in one part of the state, said once: a part that neither a taken fault nor a PC
move touches is left alone, or it is what the completed handler left. -/

namespace Sys2Proof.Machine

/-- A fetched opcode of `i` runs `i`. -/
theorem State.Fetches.runs {s : State} {i : Instr} (h : s.Fetches (opcodeOf i)) : s.Runs i := by
  obtain ⟨hrun, hpc, hop⟩ := h
  exact ⟨hrun, hpc, decodeOpcode_eq_some.mpr hop⟩

/-- A part `view` of the state that a taken fault and a PC move leave alone changes in a step only by the effect of
the instruction that the step runs. -/
theorem step_view {α : Type} (view : State → α) (hfault : ∀ s op r, view (takeFault s op r) = view s)
    (hpc : ∀ s pc, view (s.withPc pc) = view s) {s t : State} (h : step s = .next t) :
    view t = view s ∨ ∃ i u, s.Runs i ∧ Effect (s.withIr (opcodeOf i)) i u ∧ view t = view u := by
  obtain ⟨-, ⟨-, rfl⟩ | ⟨-, -, rfl⟩ | ⟨i, r, -, -, rfl⟩ | ⟨i, u, hf, -, -, heff, rfl⟩⟩ := step_cases h
  · exact .inl (hfault ..)
  · exact .inl (hfault ..)
  · exact .inl (hfault ..)
  · obtain ⟨pc, hadv⟩ := advance_eq (opcodeOf i) s.pc u
    exact .inr ⟨i, u, hf.runs, heff, by rw [hadv, hpc]⟩

end Sys2Proof.Machine
end

section
/-! PROOFS. The flags (10_state.md R29, R30): CMP alone writes them, by setting one; JEQ and JNE alone read them,
and only E. -/

namespace Sys2Proof.Machine

/-! ## Writing the flags -/

/-- A completed handler leaves the flags, or it is CMP's and sets one. -/
theorem Effect.flags {s t : State} {i : Instr} (h : Effect s i t) :
    t.flags = s.flags ∨ (i = .cmp ∧ ∃ n, t.flags = s.flags.set n) := by
  cases h
  case flag n => exact .inr ⟨rfl, n, rfl⟩
  all_goals exact .inl rfl

/-- A step leaves the flags, or it runs CMP and sets one. -/
theorem step_flags {s t : State} (h : step s = .next t) :
    t.flags = s.flags ∨ (s.Runs .cmp ∧ ∃ n, t.flags = s.flags.set n) := by
  obtain hview | ⟨i, u, hrun, heff, hview⟩ := step_view State.flags (fun _ _ _ => rfl) (fun _ _ => rfl) h
  · exact .inl hview
  · rw [hview]
    obtain hkeep | ⟨rfl, hset⟩ := heff.flags
    · exact .inl hkeep
    · exact .inr ⟨hrun, hset⟩

/-- A step clears no flag (R30). -/
theorem step_keeps_set_flags {s t : State} (h : step s = .next t) :
    (s.flags.e = true → t.flags.e = true) ∧ (s.flags.l = true → t.flags.l = true) ∧
      (s.flags.g = true → t.flags.g = true) := by
  obtain hkeep | ⟨-, n, hset⟩ := step_flags h
  · rw [hkeep]; exact ⟨id, id, id⟩
  · rw [hset]; exact flags_set_keeps s.flags n

/-- Settles O39, by induction on the run: no step clears a flag. -/
theorem flagsAreSticky : Obligations.FlagsAreSticky := by
  unfold Obligations.FlagsAreSticky
  intro s t hreach
  induction hreach with
  | refl => exact ⟨id, id, id⟩
  | step _ hstep ih =>
    obtain ⟨he, hl, hg⟩ := ih
    obtain ⟨he', hl', hg'⟩ := step_keeps_set_flags hstep
    exact ⟨he' ∘ he, hl' ∘ hl, hg' ∘ hg⟩

/-! ## Reading the flags: the operations and the handlers with other flag values -/

section
variable (s : State) (f : Flags)

@[simp] theorem operandA_withFlags : operandA (s.withFlags f) = operandA s := rfl
@[simp] theorem operandB_withFlags : operandB (s.withFlags f) = operandB s := rfl
@[simp] theorem readReg_withFlags (i : Byte) : readReg (s.withFlags f) i = readReg s i := rfl
@[simp] theorem sourceA_withFlags : sourceA (s.withFlags f) = sourceA s := rfl
@[simp] theorem returnAddress_withFlags : returnAddress (s.withFlags f) = returnAddress s := rfl

@[simp] theorem emit_withFlags (v : Byte) : (s.withFlags f).emit v = (s.emit v).withFlags f := rfl
@[simp] theorem withPc_withFlags (pc : Word9) : (s.withFlags f).withPc pc = (s.withPc pc).withFlags f := rfl

@[simp] theorem writeReg_withFlags (i v : Byte) :
    writeReg (s.withFlags f) i v = (·.withFlags f) <$> writeReg s i v := by
  unfold writeReg
  cases regIndex i <;> rfl

@[simp] theorem push_withFlags (v : Byte) : push (s.withFlags f) v = (·.withFlags f) <$> push s v := by
  unfold push writeMem
  simp only [State.withFlags_sp]
  cases memIndex ((s.sp.toNat : Int) - 1) <;> rfl

@[simp] theorem pop_withFlags : pop (s.withFlags f) = (Prod.map id (·.withFlags f)) <$> pop s := by
  unfold pop readMem
  simp only [State.withFlags_sp]
  cases memIndex (s.sp.toNat : Int) <;> rfl

@[simp] theorem jumpThroughA_withFlags :
    jumpThroughA (s.withFlags f) = (·.withFlags f) <$> jumpThroughA s := by
  unfold jumpThroughA
  rw [sourceA_withFlags]
  cases sourceA s <;> rfl

/-- The flag that CMP's comparison picks, or the fault that reading its operands raises. -/
def comparedFlag (s : State) : Checked Flag := do
  let a ← operandA s
  let b ← operandB s
  let u ← readReg s a
  let v ← readReg s b
  pure (cmp8 u v)

/-- CMP sets the compared flag (R116). -/
theorem handler_cmp : handler .cmp s = (fun n => s.withFlags (s.flags.set n)) <$> comparedFlag s := by
  simp [handler, aluHandler, alu, comparedFlag, map_bind]

theorem comparedFlag_withFlags : comparedFlag (s.withFlags f) = comparedFlag s := rfl

/-- A handler other than CMP's does the same with other flag values, which agree on E where it branches on it: it
raises the same fault, or completes in the same state but for the flags. -/
theorem handler_withFlags {i : Instr} (hi : i ≠ .cmp) (he : i = .jeq ∨ i = .jne → f.e = s.flags.e) :
    handler i (s.withFlags f) = (·.withFlags f) <$> handler i s := by
  cases i
  case cmp => exact absurd rfl hi
  case hlt => rfl
  case jmp => exact jumpThroughA_withFlags s f
  case jeq =>
    simp only [handler, State.withFlags_flags, he (.inl rfl)]
    split
    · exact jumpThroughA_withFlags s f
    · rfl
  case jne =>
    simp only [handler, State.withFlags_flags, he (.inr rfl)]
    split
    · rfl
    · exact jumpThroughA_withFlags s f
  case ldi | prn | add | mul | push | pop | call | ret => simp [handler, aluHandler, alu, map_bind]

/-- Whatever the flags, a handler raises the same fault, or completes in the same state but for the flags, where
they agree on E if it branches on it. -/
theorem exists_handler_withFlags {i : Instr} (he : i = .jeq ∨ i = .jne → f.e = s.flags.e) :
    ∃ g, handler i (s.withFlags f) = (·.withFlags g) <$> handler i s := by
  by_cases hi : i = .cmp
  · subst hi
    rw [handler_cmp, handler_cmp, comparedFlag_withFlags]
    cases comparedFlag s with
    | ok n => exact ⟨f.set n, rfl⟩
    | error r => exact ⟨f, rfl⟩
  · exact ⟨f, handler_withFlags s f hi he⟩

theorem advance_withFlags (op : Byte) (pc : Word9) :
    advance op pc (s.withFlags f) = (advance op pc s).withFlags f := by
  unfold advance
  split <;> rfl

end

/-- In memory, on a byte that has no handler, the step takes UNKNOWN_OPCODE (R79). -/
theorem step_unknown {s : State} (hr : s.status = .running) (hp : s.pc.toNat ≤ 255)
    (hd : decodeOpcode (s.memByte s.pc.toNat) = none) :
    step s = .next (takeFault s (s.memByte s.pc.toNat)
      ⟨.unknownOpcode, ((s.memByte s.pc.toNat).toNat : Int)⟩) := by
  rw [step_inside ⟨hr, hp, rfl⟩]
  simp only [runOpcode, hd]

/-- With other flag values, which agree on E where the step runs JEQ or JNE, a step leaves the same state but for
the flags. -/
theorem step_withFlags {s t : State} {f : Flags} (he : s.Runs .jeq ∨ s.Runs .jne → f.e = s.flags.e)
    (h : step s = .next t) : ∃ g, step (s.withFlags f) = .next (t.withFlags g) := by
  have hbranch {i : Instr} (hf : s.Fetches (opcodeOf i)) : i = .jeq ∨ i = .jne → f.e = s.flags.e := by
    rintro (rfl | rfl)
    · exact he (.inl hf.runs)
    · exact he (.inr hf.runs)
  obtain ⟨hr, ⟨hp, rfl⟩ | ⟨hp, hd, rfl⟩ | ⟨i, r, hf, hh, rfl⟩ | ⟨i, u, hf, hh, hu, -, rfl⟩⟩ := step_cases h
  · exact ⟨f, step_outside (s := s.withFlags f) hr hp⟩
  · exact ⟨f, step_unknown (s := s.withFlags f) hr hp hd⟩
  · obtain ⟨g, hg⟩ := exists_handler_withFlags (s.withIr (opcodeOf i)) f (hbranch hf)
    rw [hh] at hg
    exact ⟨f, step_raises (s := s.withFlags f) hf hg⟩
  · obtain ⟨g, hg⟩ := exists_handler_withFlags (s.withIr (opcodeOf i)) f (hbranch hf)
    rw [hh] at hg
    exact ⟨g, by
      rw [← advance_withFlags]
      exact step_completes (s := s.withFlags f) (t := u.withFlags g) hf hu hg⟩

/-- Settles O40: the step's flag write is CMP's, and the handlers commute with replacing the flags. -/
theorem flagsWrittenByCmpReadAsE : Obligations.FlagsWrittenByCmpReadAsE := by
  unfold Obligations.FlagsWrittenByCmpReadAsE
  refine ⟨rfl, fun s t hstep hne => ?_, fun s t f he hstep => step_withFlags he hstep⟩
  obtain hkeep | ⟨hrun, -⟩ := step_flags hstep
  · exact absurd hkeep hne
  · exact hrun

end Sys2Proof.Machine
end

section
/-! PROOFS. The stack pointer (10_state.md R21): no register is SP, and only the four stack forms move it, by one. -/

namespace Sys2Proof.Machine

/-- At reset every general register is 0 (R210). -/
theorem reset_reg (r : Fin 8) : State.reset.reg r = 0#8 := by
  simp [State.reg, State.reset]

/-- A completed handler leaves SP, or decreases it by one as PUSH or CALL, or increases it by one as POP or RET. -/
theorem Effect.sp {s t : State} {i : Instr} (h : Effect s i t) :
    t.sp = s.sp ∨ ((i = .push ∨ i = .call) ∧ t.sp.toNat + 1 = s.sp.toNat) ∨
      ((i = .pop ∨ i = .ret) ∧ t.sp.toNat = s.sp.toNat + 1) := by
  have hdown {a : Nat} (ha : s.sp.toNat = a + 1) : (s.sp - 1#9).toNat + 1 = s.sp.toNat := by bv_omega
  have hup (hs : s.sp.toNat ≤ 255) : (s.sp + 1#9).toNat = s.sp.toNat + 1 := by bv_omega
  cases h
  case push r a hr ha hm => exact .inr (.inl ⟨.inl rfl, hdown ha⟩)
  case call r a hp ha hm hr => exact .inr (.inl ⟨.inr rfl, hdown ha⟩)
  case pop r hr hs => exact .inr (.inr ⟨.inl rfl, hup hs⟩)
  case ret hs => exact .inr (.inr ⟨.inr rfl, hup hs⟩)
  all_goals exact .inl rfl

/-- Settles O41: SP moves in a step only by the effect of PUSH, CALL, POP or RET. -/
theorem stackPointerMovers : Obligations.StackPointerMovers := by
  unfold Obligations.StackPointerMovers
  refine ⟨reset_reg, fun s r v => ⟨setReg_sp s r v, reg_setReg_same s r v⟩, fun s t hstep hne => ?_⟩
  obtain hview | ⟨i, u, hrun, heff, hview⟩ := step_view State.sp (fun _ _ _ => rfl) (fun _ _ => rfl) hstep
  · exact absurd hview hne
  · rw [hview] at hne ⊢
    obtain hkeep | ⟨rfl | rfl, hsp⟩ | ⟨rfl | rfl, hsp⟩ := heff.sp
    · exact absurd hkeep hne
    · exact .inl ⟨.inl hrun, hsp⟩
    · exact .inl ⟨.inr hrun, hsp⟩
    · exact .inr ⟨.inl hrun, hsp⟩
    · exact .inr ⟨.inr hrun, hsp⟩

end Sys2Proof.Machine
end

section
/-! PROOFS. The host's load (10_state.md R40, decision D19): the image byte by byte from address 0, the rest at its
reset value, every other image refused. -/

namespace Sys2Proof.Machine

/-- Bytes stored in canonical memory, within its bounds, read back at their places. -/
theorem Memory.read_storeBytes_of_getElem? {m : Memory} (hwf : m.wf = true) {bs : List Byte} {base k : Nat} {v : Byte}
    (hfit : base + bs.length ≤ Config.memSize) (hv : bs[k]? = some v) : (m.storeBytes base bs).read (base + k) = v := by
  induction bs generalizing m base k with
  | nil => cases hv
  | cons w rest ih =>
    rw [List.length_cons] at hfit
    rw [storeBytes, if_pos (by omega)]
    cases k with
    | zero =>
      obtain rfl : w = v := by simpa using hv
      rw [Nat.add_zero base, read_storeBytes_of_lt (Nat.lt_add_one base), read_write_same hwf]
    | succ k =>
      have hbase : base < Config.memSize := by omega
      rw [← Nat.add_assoc, Nat.add_right_comm base k 1]
      have hrest : base + 1 + rest.length ≤ Config.memSize := by omega
      exact ih (wf_write hwf hbase w) hrest (by simpa using hv)

/-- Bytes stored from `base` leave every address behind them alone. -/
theorem Memory.read_storeBytes_of_le {m : Memory} {bs : List Byte} {base a : Nat} (h : base + bs.length ≤ a) :
    (m.storeBytes base bs).read a = m.read a := by
  induction bs generalizing m base with
  | nil => rfl
  | cons w rest ih =>
    rw [List.length_cons] at h
    rw [storeBytes, ih (by omega)]
    split
    · exact read_write_ne (by omega) w m
    · rfl

/-- An image that fits is loaded at address 0 of the reset state. -/
theorem boot_loads {img : List Nat} (hlen : img.length ≤ 256) (hval : ∀ v ∈ img, v ≤ 255) :
    boot img = .next (State.reset.withMem (State.reset.mem.storeBytes 0 (img.map (BitVec.ofNat 8)))) := by
  have hany : ¬ (img.any (fun v => decide (255 < v)) = true) := by simpa using hval
  rw [boot, if_neg (by simpa using hlen), if_neg hany]

/-- An image that is too long, or has a value above 255, is refused. -/
theorem boot_refuses {img : List Nat} (h : 256 < img.length ∨ ∃ v ∈ img, 255 < v) :
    ∃ r, boot img = .refused r := by
  by_cases hlen : 256 < img.length
  · exact ⟨_, if_pos hlen⟩
  · have hany : img.any (fun v => decide (255 < v)) = true := by simpa using h.resolve_left hlen
    exact ⟨_, by rw [boot, if_neg hlen, if_pos hany]⟩

/-- Settles O52: the loaded bytes read back in place, the addresses behind them read as at reset. -/
theorem loadPutsImage : Obligations.LoadPutsImage := by
  unfold Obligations.LoadPutsImage
  refine ⟨fun img hlen hval => ⟨_, boot_loads hlen hval, fun k v hk => ?_, fun k hk => ?_, rfl⟩,
    fun img h => boot_refuses h⟩
  · have hbyte : (img.map (BitVec.ofNat 8))[k]? = some (BitVec.ofNat 8 v) := by simp [hk]
    have hread := Memory.read_storeBytes_of_getElem? reset_mem_wf (base := 0) (by simpa using hlen) hbyte
    rw [Nat.zero_add] at hread
    have hv : v ≤ 255 := hval v (List.mem_of_getElem? hk)
    rw [State.withMem_memByte, hread, BitVec.toNat_ofNat]
    omega
  · rw [State.withMem_memByte, Memory.read_storeBytes_of_le (by simpa using hk)]
    rfl

end Sys2Proof.Machine
end

section
/-! PROOFS. The opcode map (30_encoding.md R74, R75, R79): distinct bytes, and every byte outside the map illegal. -/

namespace Sys2Proof

/-- The opcode of each instruction decodes back to it. -/
theorem decodeOpcode_opcodeOf (i : Instr) : decodeOpcode (opcodeOf i) = some i := decodeOpcode_eq_some.mpr rfl

/-- The thirteen opcode bytes are distinct, since the decoder inverts the map. -/
theorem opcodeOf_injective : Function.Injective opcodeOf := fun i j h =>
  Option.some.inj <| calc
    some i = decodeOpcode (opcodeOf i) := (decodeOpcode_opcodeOf i).symm
    _ = decodeOpcode (opcodeOf j) := congrArg decodeOpcode h
    _ = some j := decodeOpcode_opcodeOf j

/-- A byte has no handler exactly if it is the opcode of no instruction. -/
theorem decodeOpcode_eq_none {op : Byte} : decodeOpcode op = none ↔ ∀ i, opcodeOf i ≠ op := by
  simp only [Option.eq_none_iff_forall_ne_some, ne_eq, decodeOpcode_eq_some, eq_comm (a := op)]

/-- Settles O5: the decoder inverts the map, and the fields of the opcode byte are checked per instruction. -/
theorem opcodeMapMeetsConstraints : Obligations.OpcodeMapMeetsConstraints := by
  unfold Obligations.OpcodeMapMeetsConstraints
  have hvalid : OpcodeMapValid opcodeOf :=
    { distinct := fun _ _ h => opcodeOf_injective h
      count := operandCount_opcodeOf
      setpc := setsPc_opcodeOf }
  exact ⟨hvalid, decodeOpcode_opcodeOf, fun _ => decodeOpcode_eq_none.mpr⟩

/-! ## The illegal bytes -/

/-- No byte with count 3 has a handler: an instruction has at most two operand bytes. -/
theorem decodeOpcode_eq_none_of_count_three {op : Byte} (h : operandCount op = 3) : decodeOpcode op = none := by
  refine decodeOpcode_eq_none.mpr fun i hi => ?_
  have hle := operandCount_le_two i
  rw [hi] at hle
  omega

/-- The numbers of the bytes without a handler. -/
def illegalOpcodes : List Nat := (List.range 256).filter (fun n => decodeOpcode (BitVec.ofNat 8 n) == none)

/-- The numbers of the bytes with a handler. -/
def legalOpcodes : List Nat := (List.range 256).filter (fun n => !(decodeOpcode (BitVec.ofNat 8 n) == none))

/-- The bytes with a handler are the opcodes of the instructions, by number. -/
theorem mem_legalOpcodes {n : Nat} : n ∈ legalOpcodes ↔ ∃ i, (opcodeOf i).toNat = n := by
  simp only [legalOpcodes, List.mem_filter, List.mem_range, Bool.not_eq_true', beq_eq_false_iff_ne, ne_eq,
    decodeOpcode_eq_none, not_forall, not_not]
  constructor
  · rintro ⟨hn, i, hi⟩
    exact ⟨i, by rw [hi, BitVec.toNat_ofNat, Nat.mod_eq_of_lt hn]⟩
  · rintro ⟨i, rfl⟩
    exact ⟨(opcodeOf i).isLt, i, BitVec.eq_of_toNat_eq (by simp)⟩

/-- Thirteen bytes have a handler, one per instruction. -/
theorem length_legalOpcodes : legalOpcodes.length = 13 := by
  have hnum : Function.Injective fun i => (opcodeOf i).toNat := fun _ _ h =>
    opcodeOf_injective (BitVec.eq_of_toNat_eq h)
  have hlegal : legalOpcodes.Nodup := List.nodup_range.filter _
  have hmap : (allInstrs.map fun i => (opcodeOf i).toNat).Nodup := List.Nodup.map hnum (by decide)
  have hperm : legalOpcodes.Perm (allInstrs.map fun i => (opcodeOf i).toNat) :=
    (List.perm_ext_iff_of_nodup hlegal hmap).mpr fun n => by simp [mem_legalOpcodes, mem_allInstrs]
  rw [hperm.length_eq, List.length_map]
  rfl

/-- The other 256 - 13 bytes have none (R79). -/
theorem length_illegalOpcodes : illegalOpcodes.length = 243 := by
  have hsplit : (List.range 256).length = illegalOpcodes.length + legalOpcodes.length := by
    rw [illegalOpcodes, legalOpcodes, ← List.length_eq_length_filter_add]
  rw [List.length_range, length_legalOpcodes] at hsplit
  omega

end Sys2Proof

namespace Sys2Proof.Machine

/-- Taking a fault writes the status and the fault record alone (R183). -/
theorem takeFault_faultedFrom (s : State) (op : Byte) (r : Raised) :
    (takeFault s op r).FaultedFrom s ⟨r.cause, s.pc, op, r.info⟩ :=
  ⟨rfl, rfl, rfl, rfl, rfl, rfl, rfl, rfl⟩

/-- Settles O9: the step on an illegal byte takes UNKNOWN_OPCODE, and the illegal bytes are those outside the map. -/
theorem illegalOpcodesFault : Obligations.IllegalOpcodesFault := by
  unfold Obligations.IllegalOpcodesFault
  refine ⟨fun s hrun hpc hnone => ?_, rfl, fun _ => decodeOpcode_eq_none_of_count_three, length_illegalOpcodes⟩
  exact ⟨_, step_unknown hrun hpc hnone, takeFault_faultedFrom ..⟩

end Sys2Proof.Machine
end

section
/-! PROOFS. The engine's cycle (40_dispatch.md R91, R93): the fetched byte in `ir`, and the PC after a cycle that
completes. -/

namespace Sys2Proof

/-- `setsPc` reads bit 4 of the opcode byte (R71). -/
theorem setsPc_eq_getLsbD (op : Byte) : setsPc op = op.getLsbD 4 := by
  have hbit : (op >>> 4).getLsbD 0 = op.getLsbD 4 := BitVec.getLsbD_ushiftRight ..
  rw [setsPc, BitVec.and_one_eq_setWidth_ofBool_getLsbD, hbit]
  cases op.getLsbD 4 <;> rfl

/-- `operandCount` reads bits 7:6 of the opcode byte (R71). -/
theorem operandCount_eq_extractLsb (op : Byte) : operandCount op = (op.extractLsb 7 6).toNat := by
  rw [operandCount, BitVec.toNat_and, BitVec.extractLsb_toNat, BitVec.toNat_ushiftRight]
  exact Nat.and_two_pow_sub_one_eq_mod _ 2

end Sys2Proof

namespace Sys2Proof.Machine

/-- A step that takes no fault completes the handler of the fetched instruction, then advances. -/
theorem completes_of_step {s t : State} (h : step s = .next t) (ht : t.status ≠ .faulted) :
    ∃ i u, s.Fetches (opcodeOf i) ∧ handler i (s.withIr (opcodeOf i)) = .ok u ∧ t = advance (opcodeOf i) s.pc u := by
  obtain ⟨-, ⟨-, rfl⟩ | ⟨-, -, rfl⟩ | ⟨i, r, -, -, rfl⟩ | ⟨i, u, hf, hh, -, -, rfl⟩⟩ := step_cases h
  · exact absurd rfl ht
  · exact absurd rfl ht
  · exact absurd rfl ht
  · exact ⟨i, u, hf, hh, rfl⟩

/-- A completed handler leaves `ir`. -/
theorem Effect.ir {s t : State} {i : Instr} (h : Effect s i t) : t.ir = s.ir := by
  cases h <;> rfl

/-- Settles O13: the fetch fault outside memory; inside, neither the handler nor the advance writes `ir` again. -/
theorem fetchReadsOrFaults : Obligations.FetchReadsOrFaults := by
  unfold Obligations.FetchReadsOrFaults
  refine ⟨fun s hrun hpc => ⟨_, step_outside hrun hpc, takeFault_faultedFrom ..⟩, fun s t _ hstep ht => ?_⟩
  obtain ⟨i, u, ⟨-, -, hbyte⟩, hh, rfl⟩ := completes_of_step hstep ht
  obtain ⟨pc, hadv⟩ := advance_eq (opcodeOf i) s.pc u
  rw [hadv, hbyte]
  exact (effect_of_handler hh).ir

/-! ## The PC advance -/

/-- A completed handler that does not set the PC itself leaves it (R75, R93). -/
theorem Effect.pc {s t : State} {i : Instr} (h : Effect s i t) (hi : i.setsPcItself = false) : t.pc = s.pc := by
  cases h
  case call | ret => cases hi
  case jump hj => obtain rfl | ⟨rfl, -⟩ | ⟨rfl, -⟩ := hj <;> cases hi
  case skip hj => obtain ⟨rfl, -⟩ | ⟨rfl, -⟩ := hj <;> cases hi
  all_goals rfl

/-- The meaning of an instruction that does not set the PC itself leaves it, by a fault too. -/
theorem exec_pc {s u : State} {i : Instr} (hi : i.setsPcItself = false) (h : exec i s = .next u) : u.pc = s.pc := by
  obtain ⟨t, hh, hexec⟩ | ⟨r, -, hexec⟩ := exec_cases i s
  · cases hexec.symm.trans h
    exact (effect_of_handler hh).pc hi
  · cases hexec.symm.trans h
    rfl

/-- From an address in memory the advance by count + 1 does not wrap: the PC has 9 bits. -/
theorem advance_pc_toNat {op : Byte} {pc : Word9} (hop : setsPc op = false) (hpc : pc.toNat ≤ 255) (t : State) :
    (advance op pc t).pc.toNat = pc.toNat + operandCount op + 1 := by
  have hcount : operandCount op < 4 := by
    rw [operandCount_eq_extractLsb]
    exact (op.extractLsb 7 6).isLt
  rw [advance, if_neg (by simp [hop]), State.withPc_pc, BitVec.toNat_add, BitVec.toNat_ofNat]
  omega

/-- Where the opcode's handler sets the PC, the advance leaves its state. -/
theorem advance_of_setsPc {op : Byte} (hop : setsPc op = true) (pc : Word9) (t : State) : advance op pc t = t :=
  if_pos hop

/-- Settles O14: the step completes a handler and advances; the bit fields are the ones the engine reads. -/
theorem pcAdvance : Obligations.PcAdvance := by
  unfold Obligations.PcAdvance
  refine ⟨fun s t op hf hstep ht hbit => ?_, fun s t op hf hstep ht hbit => ?_, fun s u op i hdec hbit hexec => ?_⟩
  · obtain ⟨-, hpc, rfl⟩ := hf
    obtain ⟨i, u, ⟨-, -, hbyte⟩, -, rfl⟩ := completes_of_step hstep ht
    rw [← setsPc_eq_getLsbD] at hbit
    rw [← hbyte, advance_pc_toNat hbit hpc, operandCount_eq_extractLsb]
  · obtain ⟨-, -, rfl⟩ := hf
    obtain ⟨i, u, ⟨-, -, hbyte⟩, hh, rfl⟩ := completes_of_step hstep ht
    rw [← setsPc_eq_getLsbD, hbyte] at hbit
    refine ⟨i, u, decodeOpcode_eq_some.mpr hbyte, ?_, by rw [advance_of_setsPc hbit]⟩
    rw [hbyte, exec_eq_conclude, hh, conclude_ok]
  · obtain rfl := decodeOpcode_eq_some.mp hdec
    rw [← setsPc_eq_getLsbD, setsPc_opcodeOf] at hbit
    exact exec_pc hbit hexec

end Sys2Proof.Machine
end

section
/-! PROOFS. Runs under fuel (40_dispatch.md R96, R98, R99): a run follows the steps while the engine is running, stops
at a HALTED or FAULTED state, and is never stuck. -/

namespace Sys2Proof.Machine

/-- Only a running engine steps (R33). -/
theorem running_of_step {s t : State} (h : step s = .next t) : s.status = .running := by
  obtain ⟨hrun, -⟩ := step_cases h
  exact hrun

/-- Every meaning answers a next state. -/
theorem exists_exec (i : Instr) (s : State) : ∃ u, exec i s = .next u := by
  obtain ⟨u, -, h⟩ | ⟨r, -, h⟩ := exec_cases i s
  · exact ⟨u, h⟩
  · exact ⟨_, h⟩

/-- A running engine has a next state (R98). -/
theorem exists_step_of_running {s : State} (hrun : s.status = .running) : ∃ t, step s = .next t := by
  by_cases hpc : 255 < s.pc.toNat
  · exact ⟨_, step_outside hrun hpc⟩
  · rw [not_lt] at hpc
    cases hdec : decodeOpcode (s.memByte s.pc.toNat) with
    | none => exact ⟨_, step_unknown hrun hpc hdec⟩
    | some i =>
      obtain ⟨u, hexec⟩ := exists_exec i (fetched s)
      exact ⟨completeCycle s (s.memByte s.pc.toNat) u, by simp only [step_inside ⟨hrun, hpc, rfl⟩, runOpcode, hdec, hexec]⟩

/-! ## The run's equations -/

/-- A run from a HALTED state ends in it at once (R41). -/
theorem run_of_halted {s : State} (h : s.status = .halted) (n : Nat) : run n s = .halted s := by
  unfold run
  rw [h]

/-- A run from a FAULTED state ends in it at once (R41). -/
theorem run_of_faulted {s : State} (h : s.status = .faulted) (n : Nat) : run n s = .faulted s := by
  unfold run
  rw [h]

/-- Without fuel a running engine has not ended. -/
theorem run_zero {s : State} (h : s.status = .running) : run 0 s = .notEnded s := by
  unfold run
  rw [h]

/-- With fuel for one more cycle a run continues from the next state. -/
theorem run_succ {s t : State} (h : step s = .next t) (n : Nat) : run (n + 1) s = run n t := by
  rw [run, running_of_step h, h]

/-- The step on HLT halts, with the PC behind it (R95, R150). -/
theorem step_hlt {s : State} (h : s.Runs .hlt) :
    step s = .next (((s.withStatus .halted).withIr (opcodeOf .hlt)).withPc (s.pc + 1#9)) := by
  obtain ⟨hrun, hpc, hdec⟩ := h
  have hf : s.Fetches (opcodeOf .hlt) := ⟨hrun, hpc, decodeOpcode_eq_some.mp hdec⟩
  exact step_completes (t := (s.withIr (opcodeOf .hlt)).withStatus .halted) hf (by simp) rfl

/-- Settles O48: the first cycle leaves a state that has ended, and a run from such a state executes no cycle. -/
theorem noCycleAfterTheEnd : Obligations.NoCycleAfterTheEnd := by
  unfold Obligations.NoCycleAfterTheEnd
  refine ⟨fun s n hhlt => ?_, fun s t n hstep ht => ?_, fun s n h => run_of_halted h n, fun s n h => run_of_faulted h n⟩
  · rw [run_succ (step_hlt hhlt), run_of_halted rfl]
  · rw [run_succ hstep, run_of_faulted ht]

/-! ## The three ways a run ends -/

/-- A run is never stuck, since a running engine has a next state. -/
theorem run_ne_stuck (n : Nat) (s t : State) : run n s ≠ .stuck t := by
  cases hs : s.status with
  | halted => simp [run_of_halted hs]
  | faulted => simp [run_of_faulted hs]
  | running =>
    cases n with
    | zero => simp [run_zero hs]
    | succ n =>
      obtain ⟨u, hstep⟩ := exists_step_of_running hs
      rw [run_succ hstep]
      exact run_ne_stuck n u t

/-- Any two fuels with which a run ends give the same end. -/
theorem run_eq_of_ended {n m : Nat} {s : State} (hn : ∀ t, run n s ≠ .notEnded t) (hm : ∀ t, run m s ≠ .notEnded t) :
    run n s = run m s := by
  cases hs : s.status with
  | halted => rw [run_of_halted hs n, run_of_halted hs m]
  | faulted => rw [run_of_faulted hs n, run_of_faulted hs m]
  | running =>
    obtain ⟨u, hstep⟩ := exists_step_of_running hs
    cases n with
    | zero => exact absurd (run_zero hs) (hn s)
    | succ n =>
      cases m with
      | zero => exact absurd (run_zero hs) (hm s)
      | succ m =>
        rw [run_succ hstep] at hn hm
        rw [run_succ hstep, run_succ hstep]
        exact run_eq_of_ended hn hm

/-- A run that ends with some fuel does not diverge. -/
theorem not_diverges_of_ended {n : Nat} {s : State} (h : ∀ t, run n s ≠ .notEnded t) : ¬ Diverges s := fun hdiv =>
  not_exists.mpr h (hdiv n)

/-- A state that steps to itself diverges. -/
theorem diverges_of_step_self {s : State} (h : step s = .next s) : Diverges s := by
  intro n
  induction n with
  | zero => exact ⟨s, run_zero (running_of_step h)⟩
  | succ n ih => rwa [run_succ h]

/-- `JMP R0` at address 0, with R0 = 0 and the opcode in `ir`: the jump to itself. -/
def jumpToSelf : State := (State.reset.withMem [(0, opcodeOf .jmp)]).withIr (opcodeOf .jmp)

theorem jumpToSelf_inv : jumpToSelf.Inv where
  mem := rfl
  pc := by decide
  sp := by decide
  faulted := fun h => absurd h (by decide)
  clean := fun _ => rfl

theorem step_jumpToSelf : step jumpToSelf = .next jumpToSelf := rfl

/-- Settles O49: a run that does not diverge ends, since it is never stuck; its end does not depend on the fuel; and
the jump to itself diverges. -/
theorem runEndsInOneOfThreeWays : Obligations.RunEndsInOneOfThreeWays := by
  unfold Obligations.RunEndsInOneOfThreeWays
  refine ⟨fun s => ⟨?_, ?_, ?_, ?_⟩, jumpToSelf, jumpToSelf_inv, diverges_of_step_self step_jumpToSelf⟩
  · by_cases hdiv : Diverges s
    · exact .inr (.inr hdiv)
    · obtain ⟨n, hn⟩ := not_forall.mp hdiv
      cases hend : run n s with
      | halted t => exact .inl ⟨n, t, hend⟩
      | faulted t => exact .inr (.inl ⟨n, t, hend⟩)
      | notEnded t => exact absurd ⟨t, hend⟩ hn
      | stuck t => exact absurd hend (run_ne_stuck n s t)
  · rintro ⟨⟨n, t, hn⟩, m, u, hm⟩
    have heq : run n s = run m s := run_eq_of_ended (by simp [hn]) (by simp [hm])
    rw [hn, hm] at heq
    cases heq
  · rintro ⟨⟨n, t, hn⟩, hdiv⟩
    exact not_diverges_of_ended (n := n) (by simp [hn]) hdiv
  · rintro ⟨⟨n, t, hn⟩, hdiv⟩
    exact not_diverges_of_ended (n := n) (by simp [hn]) hdiv

end Sys2Proof.Machine
end

section
/-! PROOFS. What `exec` and `step` answer, from what the handler answers: an effect or a taken fault of `exec`
(40_dispatch.md R97), a completed or a raising handler in a cycle that runs it (R90, 60_exceptions.md R183). -/

namespace Sys2Proof.Machine

/-- Where the handler completes, the meaning answers its state. -/
theorem exec_completes {i : Instr} {s t : State} (h : handler i s = .ok t) : exec i s = .next t := by
  rw [exec_eq_conclude, h, conclude_ok]

/-- The inversion of a meaning: it has the effect of its instruction, or takes a fault. -/
theorem effect_or_fault_of_exec {i : Instr} {s t : State} (h : exec i s = .next t) :
    Effect s i t ∨ ∃ r, t = takeFault s s.ir r := by
  obtain ⟨u, hh, hexec⟩ | ⟨r, -, hexec⟩ := exec_cases i s
  · cases hexec.symm.trans h
    exact .inl (effect_of_handler hh)
  · cases hexec.symm.trans h
    exact .inr ⟨r, rfl⟩

/-- A cycle that runs `i` has fetched the opcode of `i`. -/
theorem State.Runs.fetches {s : State} {i : Instr} (h : s.Runs i) : s.Fetches (opcodeOf i) := by
  obtain ⟨hrun, hpc, hdec⟩ := h
  exact ⟨hrun, hpc, decodeOpcode_eq_some.mp hdec⟩

/-- A cycle whose handler completes leaves the handler's state, advanced. -/
theorem State.Runs.step_completes {s t : State} {i : Instr} (h : s.Runs i)
    (hh : handler i (s.withIr (opcodeOf i)) = .ok t) : step s = .next (advance (opcodeOf i) s.pc t) := by
  have ht : t.status ≠ .faulted := by
    obtain ⟨hrun, -⟩ := h
    obtain hkeep | ⟨-, hhalt⟩ := (effect_of_handler hh).status
    · simp [hkeep, hrun]
    · simp [hhalt]
  exact Machine.step_completes h.fetches ht hh

/-- A cycle whose handler raises takes that fault. -/
theorem State.Runs.stepFaults {s : State} {i : Instr} {cause : FaultCause} {info : Int} (h : s.Runs i)
    (hh : handler i (s.withIr (opcodeOf i)) = .error ⟨cause, info⟩) : s.StepFaults cause info := by
  obtain ⟨-, -, hop⟩ := h.fetches
  refine ⟨_, step_raises h.fetches hh, ?_⟩
  rw [hop]
  exact takeFault_faultedFrom ..

end Sys2Proof.Machine
end

section
/-! PROOFS. What a completed handler leaves of each part of the state, said once per part, and the frames of the
instructions that do not touch the stack (10_state.md section 8). -/

namespace Sys2Proof.Machine

/-- A completed handler leaves a register, or it is LDI's, ADD's, MUL's or POP's and `a` names the register (R22). -/
theorem Effect.reg {s t : State} {i : Instr} (h : Effect s i t) (q : Fin 8) :
    t.reg q = s.reg q ∨ ((i = .ldi ∨ i = .add ∨ i = .mul ∨ i = .pop) ∧ s.byteA = regByte q) := by
  have hset (u : State) {r : Fin 8} (v : Byte) (hr : s.byteA = regByte r) :
      (u.setReg r v).reg q = u.reg q ∨ s.byteA = regByte q := by
    by_cases hq : q = r
    · exact .inr (hq ▸ hr)
    · exact .inl (reg_setReg_ne u hq v)
  cases h
  case regWrite r v hr hi => exact (hset s v hr).imp_right fun hq => ⟨by tauto, hq⟩
  case pop r hr hs => exact (hset _ _ hr).imp_right fun hq => ⟨by simp, hq⟩
  all_goals exact .inl rfl

/-- A completed handler leaves a byte of memory, or it is PUSH's or CALL's and the byte is at `sp - 1` (R54). -/
theorem Effect.memByte {s t : State} {i : Instr} (h : Effect s i t) (b : Nat) :
    t.memByte b = s.memByte b ∨ ((i = .push ∨ i = .call) ∧ b + 1 = s.sp.toNat ∧ b ≤ 255) := by
  have hwrite {a : Nat} (v : Byte) (ha : s.sp.toNat = a + 1) (hm : a ≤ 255) :
      (s.mem.write a v).read b = s.mem.read b ∨ (b + 1 = s.sp.toNat ∧ b ≤ 255) := by
    by_cases hb : b = a
    · exact .inr ⟨by omega, by omega⟩
    · exact .inl (Memory.read_write_ne hb v s.mem)
  cases h
  case push r a hr ha hm => exact (hwrite _ ha hm).imp_right fun hb => ⟨.inl rfl, hb⟩
  case call r a hp ha hm hr => exact (hwrite _ ha hm).imp_right fun hb => ⟨.inr rfl, hb⟩
  all_goals exact .inl rfl

/-- A completed handler leaves `out`, or it is PRN's and appends the register that `a` names (R131). -/
theorem Effect.out {s t : State} {i : Instr} (h : Effect s i t) :
    t.out = s.out ∨ (i = .prn ∧ ∃ r : Fin 8, s.byteA = regByte r ∧ t.out = s.out ++ [s.reg r]) := by
  cases h
  case emit r hr => exact .inr ⟨rfl, r, hr, rfl⟩
  all_goals exact .inl rfl

/-- A completed handler leaves the fault record (R35). -/
theorem Effect.record {s t : State} {i : Instr} (h : Effect s i t) : t.record = s.record := by
  cases h <;> rfl

/-- A completed handler of an instruction that is none of the four stack forms leaves memory and SP. -/
theorem Effect.memByte_sp_of_not_stack {s t : State} {i : Instr} (h : Effect s i t)
    (hi : i ∉ [Instr.push, .call, .pop, .ret]) : (∀ b, t.memByte b = s.memByte b) ∧ t.sp = s.sp := by
  refine ⟨fun b => (h.memByte b).resolve_right ?_, h.sp.resolve_right ?_⟩
  · rintro ⟨rfl | rfl, -⟩ <;> simp at hi
  · rintro (⟨rfl | rfl, -⟩ | ⟨rfl | rfl, -⟩) <;> simp at hi

/-! ## The frames -/

/-- Settles O35: an effect of LDI, ADD or MUL writes a register, which `a` names; a fault writes none. -/
theorem registerWriteFrame : Obligations.RegisterWriteFrame := by
  unfold Obligations.RegisterWriteFrame
  intro i hi s t hexec
  obtain heff | ⟨r, rfl⟩ := effect_or_fault_of_exec hexec
  · have hne {j : Instr} (hj : j ∉ [Instr.ldi, .add, .mul]) : i ≠ j := ne_of_mem_of_not_mem hi hj
    obtain ⟨hmem, hsp⟩ := heff.memByte_sp_of_not_stack (by simp [hne])
    exact ⟨fun q hq => (heff.reg q).resolve_right fun ⟨_, hq'⟩ => hq hq', hmem, hsp,
      heff.flags.resolve_right fun ⟨hcmp, _⟩ => hne (by decide) hcmp,
      heff.out.resolve_right fun ⟨hprn, _⟩ => hne (by decide) hprn, heff.ir,
      fun _ => ⟨heff.status.resolve_right fun ⟨hhlt, _⟩ => hne (by decide) hhlt, heff.record⟩⟩
  · exact ⟨fun _ _ => rfl, fun _ => rfl, rfl, rfl, rfl, rfl, fun ht => absurd rfl ht⟩

/-- Settles O36: an effect of these writes no register, memory or SP; CMP's alone writes the flags, PRN's alone `out`,
HLT's alone the status. A fault writes the status and the record alone. -/
theorem noRegisterWriteFrame : Obligations.NoRegisterWriteFrame := by
  unfold Obligations.NoRegisterWriteFrame
  intro i hi s t hexec
  obtain heff | ⟨r, rfl⟩ := effect_or_fault_of_exec hexec
  · have hne {j : Instr} (hj : j ∉ [Instr.prn, .cmp, .hlt, .jmp, .jeq, .jne]) : i ≠ j := ne_of_mem_of_not_mem hi hj
    obtain ⟨hmem, hsp⟩ := heff.memByte_sp_of_not_stack (by simp [hne])
    exact ⟨fun q => (heff.reg q).resolve_right fun ⟨hwriter, _⟩ => by simp [hne] at hwriter, hmem, hsp, heff.ir,
      fun hcmp => heff.flags.resolve_right fun ⟨h, _⟩ => hcmp h,
      fun hprn => heff.out.resolve_right fun ⟨h, _⟩ => hprn h,
      fun hhlt _ => heff.status.resolve_right fun ⟨h, _⟩ => hhlt h, fun _ => heff.record⟩
  · exact ⟨fun _ => rfl, fun _ => rfl, rfl, rfl, fun _ => rfl, fun _ => rfl, fun _ ht => absurd rfl ht,
      fun ht => absurd rfl ht⟩

end Sys2Proof.Machine
end

section
/-! PROOFS. The ALU instructions (41_alu.md R110 to R118): what each handler raises, in order of check, and what it
completes with. -/

namespace Sys2Proof.Machine

/-- A byte below 8 names a register (R77). -/
theorem exists_regByte {i : Byte} (h : i.toNat ≤ 7) : ∃ r : Fin 8, i = regByte r :=
  ⟨⟨i.toNat, by omega⟩, BitVec.eq_of_toNat_eq (by simp)⟩

/-! ## The operations on bytes -/

theorem add8_eq_add (u v : Byte) : add8 u v = u + v := BitVec.eq_of_toNat_eq (by simp [add8])

theorem mul8_eq_mul (u v : Byte) : mul8 u v = u * v := BitVec.eq_of_toNat_eq (by simp [mul8])

/-- The comparison sets the flag of its outcome and keeps the other two (R113). -/
theorem flags_set_cmp8 (f : Flags) (u v : Byte) :
    (u.toNat = v.toNat → f.set (cmp8 u v) = ⟨true, f.l, f.g⟩) ∧
    (u.toNat < v.toNat → f.set (cmp8 u v) = ⟨f.e, true, f.g⟩) ∧
    (v.toNat < u.toNat → f.set (cmp8 u v) = ⟨f.e, f.l, true⟩) := by
  refine ⟨fun heq => ?_, fun hlt => ?_, fun hgt => ?_⟩
  · rw [cmp8, if_pos heq, Flags.set]
  · rw [cmp8, if_neg hlt.ne, if_pos hlt, Flags.set]
  · rw [cmp8, if_neg hgt.ne', if_neg hgt.not_gt, Flags.set]

/-! ## What the handlers answer -/

/-- The instruction that runs an operation of the ALU (R101). -/
def AluOp.instr : AluOp → Instr
  | .add => .add
  | .mul => .mul
  | .cmp => .cmp

theorem handler_instr (op : AluOp) (s : State) : handler op.instr s = aluHandler op s := by
  cases op <;> rfl

section
variable {s : State} (op : AluOp)

/-- With both operand bytes in memory the handler calls the ALU on them. -/
theorem aluHandler_of_operands (hpc : s.pc.toNat ≤ 253) : aluHandler op s = alu op s.byteA s.byteB s := by
  simp only [aluHandler, operandA_ok s (by omega), operandB_ok s hpc, checked_bind_ok]

theorem aluHandler_at_255 (hpc : s.pc.toNat = 255) : aluHandler op s = .error ⟨.memBounds, 256⟩ := by
  rw [aluHandler, operandA_error s (by omega), hpc]
  rfl

theorem aluHandler_at_254 (hpc : s.pc.toNat = 254) : aluHandler op s = .error ⟨.memBounds, 256⟩ := by
  rw [aluHandler, operandA_ok s (by omega), checked_bind_ok, operandB_error s (by omega), hpc]
  rfl

theorem aluHandler_bad_registerA (hpc : s.pc.toNat ≤ 253) (ha : 7 < s.byteA.toNat) :
    aluHandler op s = .error ⟨.regBounds, s.byteA.toNat⟩ := by
  rw [aluHandler_of_operands op hpc, alu, readReg_error s ha, checked_bind_error]

theorem aluHandler_bad_registerB (hpc : s.pc.toNat ≤ 253) (ha : s.byteA.toNat ≤ 7) (hb : 7 < s.byteB.toNat) :
    aluHandler op s = .error ⟨.regBounds, s.byteB.toNat⟩ := by
  obtain ⟨r, hr⟩ := exists_regByte ha
  rw [aluHandler_of_operands op hpc, alu, hr, readReg_regByte, checked_bind_ok, readReg_error s hb, checked_bind_error]

end

/-- The exceptions of the ALU instructions are those of the two-register form. -/
theorem twoRegisterFaults_instr (op : AluOp) : TwoRegisterFaults op.instr := by
  refine ⟨fun s hrun hpc => hrun.stepFaults ?_, fun s hrun hpc => hrun.stepFaults ?_,
    fun s hrun hpc ha => hrun.stepFaults ?_, fun s hrun hpc ha hb => hrun.stepFaults ?_⟩ <;> rw [handler_instr]
  · exact aluHandler_at_255 op hpc
  · exact aluHandler_at_254 op hpc
  · exact aluHandler_bad_registerA op hpc ha
  · exact aluHandler_bad_registerB op hpc ha hb

section
variable {s : State} {a b : Fin 8} (hpc : s.pc.toNat ≤ 253) (ha : s.byteA = regByte a) (hb : s.byteB = regByte b)
include hpc ha hb

/-- With both indices below 8 as well the ALU has two registers. -/
theorem handler_of_registers (op : AluOp) : handler op.instr s = alu op (regByte a) (regByte b) s := by
  rw [handler_instr, aluHandler_of_operands op hpc, ha, hb]

theorem handler_add : handler .add s = .ok (s.setReg a (add8 (s.reg a) (s.reg b))) :=
  (handler_of_registers hpc ha hb .add).trans (by simp [alu])

theorem handler_mul : handler .mul s = .ok (s.setReg a (mul8 (s.reg a) (s.reg b))) :=
  (handler_of_registers hpc ha hb .mul).trans (by simp [alu])

theorem handler_cmp_completes : handler .cmp s = .ok (s.withFlags (s.flags.set (cmp8 (s.reg a) (s.reg b)))) :=
  (handler_of_registers hpc ha hb .cmp).trans (by simp [alu])

end

/-! ## The statements -/

/-- Settles O30: the handlers complete, with the results of R111 to R113. -/
theorem aluCompletes : Obligations.AluCompletes := by
  unfold Obligations.AluCompletes
  intro s a b hpc ha hb
  have hcmp := exec_completes (handler_cmp_completes hpc ha hb)
  obtain ⟨heq, hlt, hgt⟩ := flags_set_cmp8 s.flags (s.reg a) (s.reg b)
  exact ⟨exec_completes (handler_add hpc ha hb), exec_completes (handler_mul hpc ha hb),
    fun h => by rw [hcmp, heq h], fun h => by rw [hcmp, hlt h], fun h => by rw [hcmp, hgt h]⟩

/-- Settles O19: the two-register exceptions, and the sum, which is `BitVec` addition. -/
theorem addRule : Obligations.AddRule := by
  unfold Obligations.AddRule
  refine ⟨⟨rfl, rfl, rfl⟩, twoRegisterFaults_instr .add, fun s a b hrun hpc ha hb => ?_⟩
  rw [← add8_eq_add]
  exact hrun.step_completes (handler_add (s := s.withIr (opcodeOf .add)) hpc ha hb)

/-- Settles O20: the two-register exceptions, and the product, which is `BitVec` multiplication. -/
theorem mulRule : Obligations.MulRule := by
  unfold Obligations.MulRule
  refine ⟨⟨rfl, rfl, rfl⟩, twoRegisterFaults_instr .mul, fun s a b hrun hpc ha hb => ?_⟩
  rw [← mul8_eq_mul]
  exact hrun.step_completes (handler_mul (s := s.withIr (opcodeOf .mul)) hpc ha hb)

/-- Settles O21: the two-register exceptions, and the flag that the comparison picks. -/
theorem cmpRule : Obligations.CmpRule := by
  unfold Obligations.CmpRule
  refine ⟨⟨rfl, rfl, rfl⟩, twoRegisterFaults_instr .cmp, fun s a b hrun hpc ha hb => ?_⟩
  obtain ⟨heq, hlt, hgt⟩ := flags_set_cmp8 s.flags (s.reg a) (s.reg b)
  exact ⟨_, hrun.step_completes (handler_cmp_completes (s := s.withIr (opcodeOf .cmp)) hpc ha hb),
    heq ∘ congrArg BitVec.toNat, hlt, hgt⟩

end Sys2Proof.Machine
end

section
/-! PROOFS. The load-immediate and output instructions (42_load_output.md R130 to R132): what each handler raises, in
order of check, and what it completes with; and the output sequence (10_state.md R36). -/

namespace Sys2Proof.Machine

/-! ## What the handlers answer -/

/-- An instruction that raises whatever reading `a` and the register it names raises has the exceptions of the
one-register form. -/
theorem oneRegisterFaults_of_sourceA {i : Instr}
    (h : ∀ {s : State} {r : Raised}, sourceA s = .error r → handler i s = .error r) : OneRegisterFaults i := by
  refine ⟨fun s hrun hpc => hrun.stepFaults (h (sourceA_eq_error.mpr (.inl ?_))),
    fun s hrun hpc ha => hrun.stepFaults (h (sourceA_eq_error.mpr (.inr ⟨hpc, ha, rfl⟩)))⟩
  rw [State.withIr_pc, hpc]
  exact ⟨le_rfl, rfl⟩

theorem handler_prn_error {s : State} {r : Raised} (h : sourceA s = .error r) : handler .prn s = .error r := by
  rw [handler, h, checked_bind_error]

theorem handler_prn {s : State} {a : Fin 8} (hpc : s.pc.toNat ≤ 254) (ha : s.byteA = regByte a) :
    handler .prn s = .ok (s.withOut (s.out ++ [s.reg a])) := by
  rw [handler, sourceA_ok s hpc ha, checked_bind_ok, checked_pure, State.emit]

section
variable {s : State}

/-- With both operand bytes in memory LDI writes the second one to the register that the first one names. -/
theorem handler_ldi_of_operands (hpc : s.pc.toNat ≤ 253) : handler .ldi s = writeReg s s.byteA s.byteB := by
  rw [handler, operandA_ok s (by omega), checked_bind_ok, operandB_ok s hpc, checked_bind_ok]

theorem handler_ldi_at_255 (hpc : s.pc.toNat = 255) : handler .ldi s = .error ⟨.memBounds, 256⟩ := by
  rw [handler, operandA_error s (by omega), hpc]
  rfl

theorem handler_ldi_at_254 (hpc : s.pc.toNat = 254) : handler .ldi s = .error ⟨.memBounds, 256⟩ := by
  rw [handler, operandA_ok s (by omega), checked_bind_ok, operandB_error s (by omega), hpc]
  rfl

theorem handler_ldi_bad_register (hpc : s.pc.toNat ≤ 253) (ha : 7 < s.byteA.toNat) :
    handler .ldi s = .error ⟨.regBounds, s.byteA.toNat⟩ := by
  rw [handler_ldi_of_operands hpc, writeReg_error s ha]

theorem handler_ldi {a : Fin 8} (hpc : s.pc.toNat ≤ 253) (ha : s.byteA = regByte a) :
    handler .ldi s = .ok (s.setReg a s.byteB) := by
  rw [handler_ldi_of_operands hpc, ha, writeReg_regByte]

end

/-! ## The statements about the instructions -/

/-- Settles O31: both handlers complete, and the meaning answers their state. -/
theorem loadAndOutputComplete : Obligations.LoadAndOutputComplete := by
  unfold Obligations.LoadAndOutputComplete
  exact ⟨fun s a hpc ha => exec_completes (handler_ldi hpc ha), fun s a hpc ha => exec_completes (handler_prn hpc ha)⟩

/-- Settles O17: what LDI's handler raises and completes with is what the cycle takes and advances. -/
theorem ldiRule : Obligations.LdiRule := by
  unfold Obligations.LdiRule
  exact ⟨⟨rfl, rfl, rfl⟩,
    fun s hrun hpc => hrun.stepFaults (handler_ldi_at_255 hpc),
    fun s hrun hpc => hrun.stepFaults (handler_ldi_at_254 hpc),
    fun s hrun hpc ha => hrun.stepFaults (handler_ldi_bad_register (s := s.withIr (opcodeOf .ldi)) hpc ha),
    fun s a hrun hpc ha => hrun.step_completes (handler_ldi (s := s.withIr (opcodeOf .ldi)) hpc ha)⟩

/-- Settles O18: the one-register exceptions, and the register's value at the end of `out`. -/
theorem prnRule : Obligations.PrnRule := by
  unfold Obligations.PrnRule
  exact ⟨⟨rfl, rfl, rfl⟩, oneRegisterFaults_of_sourceA handler_prn_error,
    fun s a hrun hpc ha => hrun.step_completes (handler_prn (s := s.withIr (opcodeOf .prn)) hpc ha)⟩

/-! ## The output sequence -/

/-- A step leaves `out`, or it runs PRN and appends the register that `a` names (R131). -/
theorem step_out {s t : State} (h : step s = .next t) :
    t.out = s.out ∨ (s.Runs .prn ∧ ∃ r : Fin 8, s.byteA = regByte r ∧ t.out = s.out ++ [s.reg r]) := by
  obtain hview | ⟨i, u, hrun, heff, hview⟩ := step_view State.out (fun _ _ _ => rfl) (fun _ _ => rfl) h
  · exact .inl hview
  · rw [hview]
    obtain hkeep | ⟨rfl, happend⟩ := heff.out
    · exact .inl hkeep
    · exact .inr ⟨hrun, happend⟩

/-- A step keeps what was emitted, in order (R36). -/
theorem out_prefix_of_step {s t : State} (h : step s = .next t) : s.out <+: t.out := by
  obtain hkeep | ⟨-, r, -, happend⟩ := step_out h
  · rw [hkeep]
  · rw [happend]
    exact List.prefix_append ..

/-- Settles O44: PRN's effect alone writes `out`; by induction on the run, every step keeps what was emitted. -/
theorem outputOnlyGrows : Obligations.OutputOnlyGrows := by
  unfold Obligations.OutputOnlyGrows
  refine ⟨fun s t => step_out, fun s t hreach => ?_⟩
  induction hreach with
  | refl => exact List.prefix_rfl
  | step _ hstep ih => exact ih.trans (out_prefix_of_step hstep)

end Sys2Proof.Machine
end

section
/-! PROOFS. The stack instructions PUSH and POP (43_stack.md R140 to R144): what each handler raises, in order of check,
and what it completes with; the round trip of the two; and the frames of the four stack forms (10_state.md section 8). -/

namespace Sys2Proof.Machine

/-! ## What the handlers answer -/

theorem handler_push_error {s : State} {r : Raised} (h : sourceA s = .error r) : handler .push s = .error r := by
  rw [handler, h, checked_bind_error]

section
variable {s : State} (hpc : s.pc.toNat ≤ 254)
include hpc

/-- With the operand byte in memory and the index below 8 the handler pushes the register. -/
theorem handler_push_of_register {a : Fin 8} (ha : s.byteA = regByte a) : handler .push s = push s (s.reg a) := by
  rw [handler, sourceA_ok s hpc ha, checked_bind_ok]

theorem handler_push_at_sp_zero (ha : s.byteA.toNat ≤ 7) (hsp : s.sp.toNat = 0) :
    handler .push s = .error ⟨.memBounds, -1⟩ := by
  obtain ⟨r, hr⟩ := exists_regByte ha
  rw [handler_push_of_register hpc hr, push_error s _ (.inl hsp), hsp]
  rfl

theorem handler_push {a : Fin 8} (ha : s.byteA = regByte a) (hsp : 1 ≤ s.sp.toNat) (hsp' : s.sp.toNat ≤ 256) :
    handler .push s = .ok (pushed s (s.sp.toNat - 1) (s.reg a)) := by
  rw [handler_push_of_register hpc ha, push_ok s _ (a := s.sp.toNat - 1) (by omega) (by omega)]

theorem handler_pop_at_sp_256 (hsp : s.sp.toNat = 256) : handler .pop s = .error ⟨.memBounds, 256⟩ := by
  rw [handler, operandA_ok s hpc, checked_bind_ok, pop_error s (by omega), hsp]
  rfl

/-- With the operand byte and the top of the stack in memory the handler writes the register that the former names. -/
theorem handler_pop_of_top (hsp : s.sp.toNat ≤ 255) :
    handler .pop s = writeReg (s.withSp (s.sp + 1#9)) s.byteA (s.memByte s.sp.toNat) := by
  rw [handler, operandA_ok s hpc, checked_bind_ok, pop_ok s hsp, checked_bind_ok]

theorem handler_pop_bad_register (hsp : s.sp.toNat ≤ 255) (ha : 7 < s.byteA.toNat) :
    handler .pop s = .error ⟨.regBounds, s.byteA.toNat⟩ := by
  rw [handler_pop_of_top hpc hsp, writeReg_error _ ha]

theorem handler_pop {a : Fin 8} (ha : s.byteA = regByte a) (hsp : s.sp.toNat ≤ 255) :
    handler .pop s = .ok ((s.setReg a (s.memByte s.sp.toNat)).withSp (s.sp + 1#9)) := by
  rw [handler_pop_of_top hpc hsp, ha, writeReg_regByte]
  rfl

end

theorem handler_pop_at_255 {s : State} (hpc : s.pc.toNat = 255) : handler .pop s = .error ⟨.memBounds, 256⟩ := by
  rw [handler, operandA_error s (by omega), hpc]
  rfl

/-! ## The statements about PUSH and POP -/

/-- Settles O32: both handlers complete, and the meaning answers their state. -/
theorem stackCompletes : Obligations.StackCompletes := by
  unfold Obligations.StackCompletes
  exact ⟨fun s a hpc ha hsp hsp' => exec_completes (handler_push hpc ha hsp hsp'),
    fun s a hpc ha hsp => exec_completes (handler_pop hpc ha hsp)⟩

/-- Settles O22: the one-register exceptions and MEM_BOUNDS(-1) at SP 0; else one byte is stored at the new SP,
which reads back in canonical memory. -/
theorem pushRule : Obligations.PushRule := by
  unfold Obligations.PushRule
  refine ⟨⟨rfl, rfl, rfl⟩, oneRegisterFaults_of_sourceA handler_push_error,
    fun s hrun hpc ha hsp => hrun.stepFaults (handler_push_at_sp_zero hpc ha hsp),
    fun s a hrun hpc ha hsp hsp' => ?_⟩
  have hstep := hrun.step_completes (handler_push (s := s.withIr (opcodeOf .push)) hpc ha hsp hsp')
  obtain ⟨-, -, hop⟩ := hrun.fetches
  refine ⟨_, hstep, ?sp, fun hwf => Memory.read_write_same hwf _ _, fun b hb => Memory.read_write_ne hb _ _,
    rfl, rfl, rfl, rfl, hop.symm, rfl, rfl⟩
  case sp =>
    change (s.sp - 1#9).toNat = s.sp.toNat - 1
    bv_omega

/-- Settles O23: what POP's handler raises and completes with is what the cycle takes and advances. -/
theorem popRule : Obligations.PopRule := by
  unfold Obligations.PopRule
  exact ⟨⟨rfl, rfl, rfl⟩,
    fun s hrun hpc => hrun.stepFaults (handler_pop_at_255 hpc),
    fun s hrun hpc hsp => hrun.stepFaults (handler_pop_at_sp_256 hpc hsp),
    fun s hrun hpc hsp ha => hrun.stepFaults (handler_pop_bad_register (s := s.withIr (opcodeOf .pop)) hpc hsp ha),
    fun s a hrun hpc hsp ha => hrun.step_completes (handler_pop (s := s.withIr (opcodeOf .pop)) hpc ha hsp)⟩

/-! ## The round trip -/

/-- A step that runs `i` and takes no fault has an effect of `i`, up to the PC advance. -/
theorem State.Runs.effect_of_step {s t : State} {i : Instr} (h : s.Runs i) (hstep : step s = .next t)
    (ht : t.status ≠ .faulted) : ∃ u, Effect (s.withIr (opcodeOf i)) i u ∧ t = advance (opcodeOf i) s.pc u := by
  cases hh : handler i (s.withIr (opcodeOf i)) with
  | ok u =>
    cases (h.step_completes hh).symm.trans hstep
    exact ⟨u, effect_of_handler hh, rfl⟩
  | error r =>
    cases (step_raises h.fetches hh).symm.trans hstep
    exact absurd rfl ht

/-- After a PUSH of `r` that takes no fault, SP is one less and in memory, and the byte there is the register's. -/
theorem State.Runs.top_of_push {s t : State} {r : Fin 8} (h : s.Runs .push) (hwf : s.mem.wf = true)
    (hr : s.byteA = regByte r) (hstep : step s = .next t) (ht : t.status ≠ .faulted) :
    t.sp = s.sp - 1#9 ∧ t.sp.toNat ≤ 255 ∧ t.memByte t.sp.toNat = s.reg r := by
  obtain ⟨u, heff, rfl⟩ := h.effect_of_step hstep ht
  cases heff
  case regWrite hi | jump hi | skip hi => simp at hi
  case push q a hq ha hm =>
    cases regByte_injective (hq.symm.trans hr)
    have htop : (s.sp - 1#9).toNat = a := by
      rw [State.withIr_sp] at ha
      bv_omega
    refine ⟨rfl, htop.trans_le hm, ?_⟩
    change (s.mem.write a (s.reg r)).read (s.sp - 1#9).toNat = s.reg r
    rw [htop]
    exact Memory.read_write_same hwf a _

/-- Settles O50: the PUSH leaves the register's value at SP, from where the POP reads it. -/
theorem pushPopRoundTrip : Obligations.PushPopRoundTrip := by
  unfold Obligations.PushPopRoundTrip
  intro s t u r hwf hpush hr hstep ht hpop hpc hur husp htop
  obtain ⟨hsp, hle, hbyte⟩ := hpush.top_of_push hwf hr hstep ht
  have hstep' := hpop.step_completes
    (handler_pop (s := u.withIr (opcodeOf .pop)) hpc hur (husp.symm ▸ hle))
  obtain ⟨hrun, -⟩ := hpop
  refine ⟨_, hstep', hrun, ?reg, ?sp⟩
  case reg => exact (reg_setReg_same _ r _).trans (htop.trans hbyte)
  case sp =>
    change u.sp + 1#9 = s.sp
    rw [husp, hsp, BitVec.sub_add_cancel]

/-! ## The frames -/

/-- A completed handler of the four stack forms leaves the flags, `out`, `ir`, the status and the fault record. -/
theorem Effect.rest_of_stack {s t : State} {i : Instr} (h : Effect s i t) (hi : i ∈ [Instr.push, .call, .pop, .ret]) :
    t.flags = s.flags ∧ t.out = s.out ∧ t.ir = s.ir ∧
      (t.status ≠ .faulted → t.status = s.status ∧ t.record = s.record) := by
  have hne {j : Instr} (hj : j ∉ [Instr.push, .call, .pop, .ret]) : i ≠ j := ne_of_mem_of_not_mem hi hj
  exact ⟨h.flags.resolve_right fun ⟨hcmp, _⟩ => hne (by decide) hcmp,
    h.out.resolve_right fun ⟨hprn, _⟩ => hne (by decide) hprn, h.ir,
    fun _ => ⟨h.status.resolve_right fun ⟨hhlt, _⟩ => hne (by decide) hhlt, h.record⟩⟩

/-- Settles O37: an effect of POP or RET writes no memory, moves SP up, and POP's alone writes a register, which `a`
names; a fault does none of these. -/
theorem popAndReturnFrame : Obligations.PopAndReturnFrame := by
  unfold Obligations.PopAndReturnFrame
  intro i hi s t hexec
  obtain heff | ⟨e, rfl⟩ := effect_or_fault_of_exec hexec
  · have hne {j : Instr} (hj : j ∉ [Instr.pop, .ret]) : i ≠ j := ne_of_mem_of_not_mem hi hj
    refine ⟨fun r hr => (heff.reg r).resolve_right ?reg, fun b => (heff.memByte b).resolve_right ?mem, ?sp,
      heff.rest_of_stack (List.mem_cons_of_mem _ (List.mem_cons_of_mem _ hi))⟩
    case reg =>
      rintro ⟨hwriter, ha⟩
      obtain rfl | hr := hr
      · simp at hwriter
      · exact hr ha
    case mem => simp [hne]
    case sp =>
      obtain hkeep | ⟨hpush, -⟩ | ⟨-, hup⟩ := heff.sp
      · exact .inl hkeep
      · simp [hne] at hpush
      · exact .inr (by bv_omega)
  · exact ⟨fun _ _ => rfl, fun _ => rfl, .inl rfl, rfl, rfl, rfl, fun ht => absurd rfl ht⟩

/-- Settles O38: an effect of PUSH or CALL writes one byte, at an address `sp - 1` in memory, and moves SP down; a fault
does neither, and an effect from a state that has not faulted is no fault. -/
theorem pushAndCallFrame : Obligations.PushAndCallFrame := by
  unfold Obligations.PushAndCallFrame
  intro i hi s t hexec
  obtain heff | ⟨e, rfl⟩ := effect_or_fault_of_exec hexec
  · have hne {j : Instr} (hj : j ∉ [Instr.push, .call]) : i ≠ j := ne_of_mem_of_not_mem hi hj
    have hmem (b : Nat) : t.memByte b = s.memByte b ∨ memIndex ((s.sp.toNat : Int) - 1) = .ok b :=
      (heff.memByte b).imp_right fun ⟨_, hb, hb'⟩ => memIndex_eq_ok.mpr ⟨by omega, hb'⟩
    refine ⟨fun r => (heff.reg r).resolve_right ?reg, fun a ha b hb => (hmem b).resolve_right ?other,
      fun e he b => (hmem b).resolve_right ?none, fun hs ht => ?fault, ?sp, heff.rest_of_stack ?stack⟩
    case reg => simp [hne]
    case other =>
      rw [ha]
      exact fun h => hb (Except.ok.inj h).symm
    case none => simp [he]
    case fault => exact absurd ((heff.status.resolve_right fun ⟨hhlt, _⟩ => hne (by decide) hhlt).symm.trans ht) hs
    case sp =>
      obtain hkeep | ⟨-, hdown⟩ | ⟨hpop, -⟩ := heff.sp
      · exact .inl hkeep
      · exact .inr (by bv_omega)
      · simp [hne] at hpop
    case stack => exact List.mem_append_left [Instr.pop, .ret] hi
  · exact ⟨fun _ => rfl, fun _ _ _ _ => rfl, fun _ _ _ => rfl, fun _ _ _ => rfl, .inl rfl, rfl, rfl, rfl,
      fun ht => absurd rfl ht⟩

end Sys2Proof.Machine
end

section
/-! PROOFS. The control instructions (44_control.md R150 to R162): what each handler raises, in order of check, and what
it completes with; and the return of RET to the address behind CALL (R161). -/

namespace Sys2Proof.Machine

/-! ## What the jumps answer -/

section
variable {s : State}

theorem jumpThroughA_ok {a : Fin 8} (hpc : s.pc.toNat ≤ 254) (ha : s.byteA = regByte a) :
    jumpThroughA s = .ok (s.withPc (zext9 (s.reg a))) := jumpThroughA_eq_ok.mpr ⟨hpc, a, ha, rfl⟩

theorem jumpThroughA_at_255 (hpc : s.pc.toNat = 255) : jumpThroughA s = .error ⟨.memBounds, 256⟩ :=
  jumpThroughA_eq_error.mpr (sourceA_eq_error.mpr (.inl ⟨hpc.ge, by rw [hpc]; rfl⟩))

theorem jumpThroughA_bad_register (hpc : s.pc.toNat ≤ 254) (ha : 7 < s.byteA.toNat) :
    jumpThroughA s = .error ⟨.regBounds, s.byteA.toNat⟩ :=
  jumpThroughA_eq_error.mpr (sourceA_eq_error.mpr (.inr ⟨hpc, ha, rfl⟩))

theorem handler_jeq_taken (he : s.flags.e = true) : handler .jeq s = jumpThroughA s := if_pos he

theorem handler_jeq_not_taken (he : s.flags.e = false) : handler .jeq s = .ok (skipOperand s) := by
  rw [handler, he, if_neg Bool.false_ne_true]

theorem handler_jne_taken (he : s.flags.e = false) : handler .jne s = jumpThroughA s := by
  rw [handler, he, if_neg Bool.false_ne_true]

theorem handler_jne_not_taken (he : s.flags.e = true) : handler .jne s = .ok (skipOperand s) := if_pos he

end

/-! ## What CALL and RET answer -/

/-- The SP that a push to the cell `a` leaves is `a`. -/
theorem sp_sub_one_toNat {s : State} {a : Nat} (ha : s.sp.toNat = a + 1) : (s.sp - 1#9).toNat = a := by
  bv_omega

/-- The state after CALL's push of its return address, from which it reads its operand (R156). -/
abbrev callPushed (s : State) : State := pushed s (s.sp.toNat - 1) (BitVec.ofNat 8 (s.pc.toNat + 2))

/-- A return address in memory fits in a byte (R156). -/
theorem returnByte_toNat {n : Nat} (h : n ≤ 253) : (BitVec.ofNat 8 (n + 2)).toNat = n + 2 := by
  rw [BitVec.toNat_ofNat]
  omega

section
variable {s : State}

/-- The operand byte that CALL reads: the return address where the push overwrote it (R156). -/
theorem callPushed_byteA (hwf : s.mem.wf = true) : (callPushed s).byteA =
    if s.sp.toNat - 1 = s.pc.toNat + 1 then BitVec.ofNat 8 (s.pc.toNat + 2) else s.byteA := by
  split
  case isTrue heq =>
    rw [callPushed, heq]
    exact Memory.read_write_same hwf _ _
  case isFalse hne => exact Memory.read_write_ne (Ne.symm hne) _ _

theorem handler_call_without_return_address (hpc : 254 ≤ s.pc.toNat) :
    handler .call s = .error ⟨.memBounds, (s.pc.toNat : Int) + 2⟩ := by
  rw [handler, returnAddress_eq_error.mpr ⟨hpc, rfl⟩, checked_bind_error]

theorem handler_ret_at_sp_256 (hsp : s.sp.toNat = 256) : handler .ret s = .error ⟨.memBounds, 256⟩ := by
  rw [handler, pop_error s (by omega), hsp]
  rfl

theorem handler_ret (hsp : s.sp.toNat ≤ 255) :
    handler .ret s = .ok ((s.withSp (s.sp + 1#9)).withPc (zext9 (s.memByte s.sp.toNat))) := by
  rw [handler, pop_ok s hsp, checked_bind_ok, checked_pure]

end

section
variable {s : State} (hpc : s.pc.toNat ≤ 253)
include hpc

/-- With the return address in memory CALL pushes it, then jumps from the state that the push left. -/
theorem handler_call_of_return_address :
    handler .call s = (push s (BitVec.ofNat 8 (s.pc.toNat + 2)) >>= jumpThroughA) := by
  rw [handler, returnAddress_eq_ok.mpr ⟨hpc, rfl⟩, checked_bind_ok]

theorem handler_call_at_sp_zero (hsp : s.sp.toNat = 0) : handler .call s = .error ⟨.memBounds, -1⟩ := by
  rw [handler_call_of_return_address hpc, push_error s _ (.inl hsp), hsp]
  rfl

variable (hsp : 1 ≤ s.sp.toNat) (hsp' : s.sp.toNat ≤ 256)
include hsp hsp'

theorem handler_call_of_push : handler .call s = jumpThroughA (callPushed s) := by
  rw [handler_call_of_return_address hpc, push_ok s _ (a := s.sp.toNat - 1) (by omega) (by omega), checked_bind_ok]

theorem handler_call_bad_register (ha : 7 < (callPushed s).byteA.toNat) :
    handler .call s = .error ⟨.regBounds, (callPushed s).byteA.toNat⟩ :=
  (handler_call_of_push hpc hsp hsp').trans (jumpThroughA_bad_register (Nat.le_succ_of_le hpc) ha)

theorem handler_call {a : Fin 8} (ha : (callPushed s).byteA = regByte a) :
    handler .call s = .ok ((callPushed s).withPc (zext9 (s.reg a))) :=
  (handler_call_of_push hpc hsp hsp').trans (jumpThroughA_ok (Nat.le_succ_of_le hpc) ha)

end

/-! ## The statements about the jumps -/

/-- Settles O34: taken, the handler jumps through `a`; not taken, it skips the operand byte. -/
theorem jumpsComplete : Obligations.JumpsComplete := by
  unfold Obligations.JumpsComplete
  refine ⟨fun s a hpc ha => ?_, fun s => ⟨fun he => ?_, fun he => ?_⟩⟩
  · have hjump := jumpThroughA_ok hpc ha
    exact ⟨exec_completes hjump, fun he => exec_completes ((handler_jeq_taken he).trans hjump),
      fun he => exec_completes ((handler_jne_taken he).trans hjump)⟩
  · exact exec_completes (handler_jeq_not_taken he)
  · exact exec_completes (handler_jne_not_taken he)

/-- Settles O27: the one-register exceptions, and the jump through `a`. -/
theorem jmpRule : Obligations.JmpRule := by
  unfold Obligations.JmpRule
  exact ⟨⟨rfl, rfl, rfl⟩, oneRegisterFaults_of_sourceA (i := .jmp) jumpThroughA_eq_error.mpr,
    fun s a hrun hpc ha => hrun.step_completes (jumpThroughA_ok (s := s.withIr (opcodeOf .jmp)) hpc ha)⟩

/-- While E has the value with which the handler jumps, the step raises the one-register exceptions, else it lands at
the address in the register. -/
theorem step_of_taken {i : Instr} {e : Bool} (hset : setsPc (opcodeOf i) = true)
    (hjump : ∀ {s : State}, s.flags.e = e → handler i s = jumpThroughA s) :
    (∀ s : State, s.Runs i → s.flags.e = e → s.pc.toNat = 255 → s.StepFaults .memBounds 256) ∧
    (∀ s : State, s.Runs i → s.flags.e = e → s.pc.toNat ≤ 254 → 7 < s.byteA.toNat →
      s.StepFaults .regBounds s.byteA.toNat) ∧
    (∀ (s : State) (a : Fin 8), s.Runs i → s.flags.e = e → s.pc.toNat ≤ 254 → s.byteA = regByte a →
      step s = .next ((s.withIr (opcodeOf i)).withPc (zext9 (s.reg a)))) := by
  refine ⟨fun s hrun he hpc => hrun.stepFaults ?_, fun s hrun he hpc ha => hrun.stepFaults ?_,
    fun s a hrun he hpc ha => ?lands⟩
  case lands =>
    have hstep := hrun.step_completes ((hjump (s := s.withIr (opcodeOf i)) he).trans (jumpThroughA_ok hpc ha))
    rwa [advance_of_setsPc hset] at hstep
  · exact (hjump (s := s.withIr (opcodeOf i)) he).trans (jumpThroughA_at_255 hpc)
  · exact (hjump (s := s.withIr (opcodeOf i)) he).trans (jumpThroughA_bad_register hpc ha)

/-- Settles O28: with E set the handler is the jump through `a`; else it skips the operand byte. -/
theorem jeqRule : Obligations.JeqRule := by
  unfold Obligations.JeqRule
  obtain ⟨hmem, hreg, hlands⟩ := step_of_taken (i := .jeq) rfl handler_jeq_taken
  exact ⟨⟨rfl, rfl, rfl⟩, hmem, hreg, hlands,
    fun s hrun he => hrun.step_completes (handler_jeq_not_taken (s := s.withIr (opcodeOf .jeq)) he)⟩

/-- Settles O29: with E clear the handler is the jump through `a`; else it skips the operand byte. -/
theorem jneRule : Obligations.JneRule := by
  unfold Obligations.JneRule
  obtain ⟨hmem, hreg, hlands⟩ := step_of_taken (i := .jne) rfl handler_jne_taken
  exact ⟨⟨rfl, rfl, rfl⟩, hmem, hreg, hlands,
    fun s hrun he => hrun.step_completes (handler_jne_not_taken (s := s.withIr (opcodeOf .jne)) he)⟩

/-! ## The statements about HLT, CALL and RET -/

/-- Settles O24: the step on HLT halts, and the engine advances the PC (R95). -/
theorem hltRule : Obligations.HltRule := by
  unfold Obligations.HltRule
  exact ⟨⟨rfl, rfl, rfl⟩, fun s => step_hlt⟩

/-- Settles O26: what RET's handler raises and completes with is what the cycle takes and keeps. -/
theorem retRule : Obligations.RetRule := by
  unfold Obligations.RetRule
  exact ⟨⟨rfl, rfl, rfl⟩, fun s hrun hsp => hrun.stepFaults (handler_ret_at_sp_256 hsp),
    fun s hrun hsp => hrun.step_completes (handler_ret (s := s.withIr (opcodeOf .ret)) hsp)⟩

/-- Settles O33: the three handlers complete; CALL's jump reads its operand from the state after the push. -/
theorem haltCallAndReturnComplete : Obligations.HaltCallAndReturnComplete := by
  unfold Obligations.HaltCallAndReturnComplete
  refine ⟨fun s => exec_completes rfl, fun s t a hpc hsp hsp' ht ha => ?call,
    fun s hsp => exec_completes (handler_ret hsp)⟩
  case call =>
    subst ht
    exact exec_completes (handler_call hpc hsp hsp' ha)

/-- Settles O25: CALL checks the return address, then SP; the jump from the pushed state then raises REG_BOUNDS or
completes, and the operand byte it reads there is the return address where the push overwrote it. -/
theorem callRule : Obligations.CallRule := by
  unfold Obligations.CallRule
  refine ⟨⟨rfl, rfl, rfl⟩, fun s hrun hpc => hrun.stepFaults (handler_call_without_return_address hpc),
    fun s hrun hpc hsp => hrun.stepFaults (handler_call_at_sp_zero hpc hsp), fun s i hrun hwf hpc hsp hsp' hi => ?_⟩
  rw [← callPushed_byteA hwf] at hi
  subst hi
  refine ⟨fun ha => hrun.stepFaults (handler_call_bad_register (s := s.withIr (opcodeOf .call)) hpc hsp hsp' ha),
    fun a ha => ?_⟩
  have hstep := hrun.step_completes (handler_call (s := s.withIr (opcodeOf .call)) hpc hsp hsp' ha)
  obtain ⟨-, -, hop⟩ := hrun.fetches
  refine ⟨_, hstep, sp_sub_one_toNat (Nat.sub_add_cancel hsp).symm, ?top,
    fun b hb => Memory.read_write_ne hb _ _, rfl, rfl, rfl, rfl, hop.symm, rfl, rfl⟩
  case top => exact (congrArg BitVec.toNat (Memory.read_write_same hwf _ _)).trans (returnByte_toNat hpc)

/-! ## The return to the address behind CALL -/

/-- After a CALL that takes no fault, SP is one less and in memory, and the byte there is the return address. -/
theorem State.Runs.top_of_call {s t : State} (h : s.Runs .call) (hwf : s.mem.wf = true) (hstep : step s = .next t)
    (ht : t.status ≠ .faulted) :
    t.sp = s.sp - 1#9 ∧ t.sp.toNat ≤ 255 ∧ (t.memByte t.sp.toNat).toNat = s.pc.toNat + 2 := by
  obtain ⟨u, heff, rfl⟩ := h.effect_of_step hstep ht
  cases heff
  case regWrite hi | jump hi | skip hi => simp at hi
  case call r a hpc ha hm hr =>
    have htop : (s.sp - 1#9).toNat = a := sp_sub_one_toNat ha
    refine ⟨rfl, htop.trans_le hm, ?_⟩
    change ((s.mem.write a (BitVec.ofNat 8 (s.pc.toNat + 2))).read (s.sp - 1#9).toNat).toNat = s.pc.toNat + 2
    rw [htop, Memory.read_write_same hwf]
    exact returnByte_toNat hpc

/-- Settles O51: the CALL leaves its return address at SP, from where the RET reads it. -/
theorem callReturnPair : Obligations.CallReturnPair := by
  unfold Obligations.CallReturnPair
  intro s t u hwf hcall hstep ht hret husp htop
  obtain ⟨hsp, hle, hbyte⟩ := hcall.top_of_call hwf hstep ht
  have hstep' := hret.step_completes (handler_ret (s := u.withIr (opcodeOf .ret)) (husp.symm ▸ hle))
  obtain ⟨hrun, -⟩ := hret
  refine ⟨_, hstep', hrun, ?pc, ?sp⟩
  case pc =>
    change (zext9 (u.memByte u.sp.toNat)).toNat = s.pc.toNat + 2
    rw [htop, BitVec.toNat_setWidth_of_le (by decide), hbyte]
  case sp =>
    change u.sp + 1#9 = s.sp
    rw [husp, hsp, BitVec.sub_add_cancel]

end Sys2Proof.Machine
end

section
/-! PROOFS. Faults are precise (60_exceptions.md R183): a step that ends FAULTED took the fault from the state before
the cycle, with the fetched byte as its opcode, or 0 where the fetch itself faulted. -/

namespace Sys2Proof.Machine

/-- A handler raises a real cause (R180). -/
theorem Raises.cause_ne_none {s : State} {i : Instr} {r : Raised} (h : Raises s i r) : r.cause ≠ .none := by
  cases h <;> exact nofun

/-- The PC advance leaves the status. -/
theorem advance_status (op : Byte) (pc : Word9) (t : State) : (advance op pc t).status = t.status := by
  obtain ⟨pc', hadv⟩ := advance_eq op pc t
  rw [hadv, State.withPc_status]

/-- The byte of `fault_opcode` (R183): the fetched byte, or 0 where the PC lies outside memory. -/
def State.faultOpcode (s : State) : Byte := if s.pc.toNat ≤ 255 then s.memByte s.pc.toNat else 0#8

theorem State.faultOpcode_outside {s : State} (h : 255 < s.pc.toNat) : s.faultOpcode = 0#8 := if_neg h.not_ge

theorem State.faultOpcode_inside {s : State} (h : s.pc.toNat ≤ 255) : s.faultOpcode = s.memByte s.pc.toNat := if_pos h

/-- The inversion of a step that faults: it takes a fault with a real cause from the state before the cycle. -/
theorem takeFault_of_step {s t : State} (h : step s = .next t) (ht : t.status = .faulted) :
    ∃ r : Raised, r.cause ≠ .none ∧ t = takeFault s s.faultOpcode r := by
  obtain ⟨-, ⟨hpc, rfl⟩ | ⟨hpc, -, rfl⟩ | ⟨i, r, ⟨-, hpc, hbyte⟩, hraise, rfl⟩ | ⟨i, u, -, -, hu, -, rfl⟩⟩ :=
    step_cases h
  · exact ⟨⟨.memBounds, _⟩, nofun, by rw [State.faultOpcode_outside hpc]⟩
  · exact ⟨⟨.unknownOpcode, _⟩, nofun, by rw [State.faultOpcode_inside hpc]⟩
  · exact ⟨r, (raises_of_handler hraise).cause_ne_none, by rw [State.faultOpcode_inside hpc, hbyte]⟩
  · exact absurd ((advance_status ..).symm.trans ht) hu

/-- Settles O15: fault entry writes the status and the record alone, and a step that faults is that fault entry. -/
theorem faultsArePrecise : Obligations.FaultsArePrecise := by
  unfold Obligations.FaultsArePrecise
  refine ⟨takeFault_faultedFrom, fun s t hstep ht => ?_⟩
  obtain ⟨r, hcause, rfl⟩ := takeFault_of_step hstep ht
  exact ⟨r, hcause, takeFault_faultedFrom s s.faultOpcode r⟩

end Sys2Proof.Machine
end

section
/-! PROOFS. The state at reset (70_reset_and_hazards.md R210): memory and registers through their accessors, every other
piece of state as constructed. -/

namespace Sys2Proof.Machine

/-- Reset memory lists no cell, so every byte of it reads 0 (R52, R210). -/
theorem reset_memByte (a : Nat) : State.reset.memByte a = 0#8 := Memory.read_nil a

/-- Settles O1: the memory and register reads at reset, and the constructed value of each remaining field. -/
theorem resetValues : Obligations.ResetValues := by
  unfold Obligations.ResetValues
  exact ⟨fun a _ => reset_memByte a, reset_reg, rfl, rfl, rfl, rfl, rfl, rfl, rfl⟩

end Sys2Proof.Machine
end

section
/-! PROOFS. Program lines (30_encoding.md R70, R73, R81): reading back an encoded line, encoding a line that was read,
and a line that stands in memory at the PC. -/

namespace Sys2Proof

theorem Code.wellFormed_iff {c : Code} :
    c.WellFormed = true ↔ c.operands.length = c.instr.format.operands.length := beq_iff_eq

/-- What follows an opcode is split behind the operand bytes of its instruction's format, or is too short. -/
theorem decodeBytes_opcodeOf (i : Instr) (rest : List Byte) :
    decodeBytes (opcodeOf i :: rest) =
      if rest.length < i.format.operands.length then .error (.missingOperand i)
      else .ok (⟨i, rest.take i.format.operands.length⟩, rest.drop i.format.operands.length) := by
  simp only [decodeBytes, decodeOpcode_opcodeOf, operandCount_opcodeOf]

/-- A byte without a handler begins no program line. -/
theorem decodeBytes_unknown {op : Byte} (h : decodeOpcode op = none) (rest : List Byte) :
    decodeBytes (op :: rest) = .error (.unknownOpcode op) := by
  simp only [decodeBytes, h]

/-- Settles O6: the format's operand count, which the opcode byte holds, is the length of the line's operand bytes, so
the list behind the opcode is split exactly behind them. -/
theorem decodeOfEncode : Obligations.DecodeOfEncode := by
  unfold Obligations.DecodeOfEncode
  rintro ⟨i, operands⟩ rest hwf
  have hlen : operands.length = i.format.operands.length := Code.wellFormed_iff.mp hwf
  rw [encode, List.cons_append, decodeBytes_opcodeOf, ← hlen, if_neg (by simp), List.take_left, List.drop_left]

/-- Settles O7: a list decodes only if it begins with an opcode and as many operand bytes as its format has. -/
theorem encodeOfDecode : Obligations.EncodeOfDecode := by
  unfold Obligations.EncodeOfDecode
  intro bs c rest h
  cases bs with
  | nil => cases h
  | cons op tail =>
    cases hdec : decodeOpcode op with
    | none =>
      rw [decodeBytes_unknown hdec] at h
      cases h
    | some i =>
      obtain rfl := decodeOpcode_eq_some.mp hdec
      rw [decodeBytes_opcodeOf] at h
      split at h
      · cases h
      · next hlen =>
        cases h
        refine ⟨Code.wellFormed_iff.mpr (List.length_take_of_le (not_lt.mp hlen)), ?_⟩
        rw [encode, List.cons_append, List.take_append_drop]

/-- Settles O4: each of the thirteen rows of R74 is evaluated. -/
theorem specOpcodeRowsDecode : Obligations.SpecOpcodeRowsDecode := by
  unfold Obligations.SpecOpcodeRowsDecode
  decide

end Sys2Proof

namespace Sys2Proof.Machine

/-- Settles O11: the first byte of the line is the opcode at the PC, the others lie behind it in memory. -/
theorem encodedLineIsRun : Obligations.EncodedLineIsRun := by
  unfold Obligations.EncodedLineIsRun
  intro s c hrun _ hfit hbytes
  rw [encode, List.length_cons] at hfit
  refine ⟨⟨hrun, by omega, decodeOpcode_eq_some.mpr (hbytes 0 _ rfl)⟩, fun k v hv => ?_⟩
  obtain ⟨hk, -⟩ := List.getElem?_eq_some_iff.mp hv
  have hbyte : s.memByte (s.pc.toNat + 1 + k) = v := by
    rw [Nat.add_assoc, Nat.add_comm 1 k]
    exact hbytes (k + 1) v hv
  rw [← hbyte]
  exact_mod_cast readMem_nat s (n := s.pc.toNat + 1 + k) (by omega)

end Sys2Proof.Machine
end

section
/-! PROOFS. The decoder and the engine over any valid opcode map (00_scope.md R8, 30_encoding.md R75, 40_dispatch.md
R93), and the machine's own step around a decoded instruction. -/

namespace Sys2Proof

/-- The decoder of a valid map answers an instruction on exactly its byte: the bytes are distinct. -/
theorem decodeWith_eq_some {m : Instr → Byte} (hm : OpcodeMapValid m) {op : Byte} {i : Instr} :
    decodeWith m op = some i ↔ m i = op := by
  have hsound {j : Instr} (h : decodeWith m op = some j) : m j = op := by simpa using List.find?_some h
  refine ⟨hsound, fun hi => ?_⟩
  have hfound : (decodeWith m op).isSome := List.find?_isSome.mpr ⟨i, mem_allInstrs i, by simpa using hi⟩
  obtain ⟨j, hj⟩ := Option.isSome_iff_exists.mp hfound
  obtain rfl : j = i := hm.distinct j i ((hsound hj).trans hi.symm)
  exact hj

/-- Settles O8: the map of R74 is valid, and two decoders that answer each instruction on the same byte are equal. -/
theorem anyValidMapDecodes : Obligations.AnyValidMapDecodes := by
  unfold Obligations.AnyValidMapDecodes
  obtain ⟨hvalid, -, -⟩ := opcodeMapMeetsConstraints
  refine ⟨fun m hm op i => decodeWith_eq_some hm, fun op => Option.ext fun i => ?_⟩
  rw [decodeOpcode_eq_some, decodeWith_eq_some hvalid, eq_comm]

end Sys2Proof

namespace Sys2Proof.Machine

/-- The engine over any decoder runs the meaning of the decoded instruction and ends the cycle (R90). -/
theorem engineStep_inside {decode : Byte → Option Instr} {s u : State} {op : Byte} {i : Instr} (hf : s.Fetches op)
    (hdec : decode op = some i) (hexec : exec i (s.withIr op) = .next u) :
    engineStep decode s = .next (completeCycle s op u) := by
  obtain ⟨hrun, hpc, rfl⟩ := hf
  simp only [engineStep, hrun, cycle, fetch_ok s hpc, runOpcode, hdec, hexec]

/-- A cycle that takes no fault ends with the PC advance (R93). -/
theorem completeCycle_of_not_faulted {u : State} (hu : u.status ≠ .faulted) (s : State) (op : Byte) :
    completeCycle s op u = advance op s.pc u := if_neg hu

/-- A cycle that takes a fault puts `ir` back (log entry 3). -/
theorem completeCycle_of_faulted {u : State} (hu : u.status = .faulted) (s : State) (op : Byte) :
    completeCycle s op u = u.withIr s.ir := if_pos hu

/-- Where the engine advances the PC, it is by one more than the count field (R93). -/
theorem advance_of_not_setsPc {op : Byte} (hop : setsPc op = false) (pc : Word9) (t : State) :
    advance op pc t = t.withPc (pc + BitVec.ofNat 9 (operandCount op + 1)) := if_neg (by simp [hop])

/-- Settles O10: the engine's cycle over the machine's decoder, and its end by the status the meaning leaves. -/
theorem stepRunsDecodedInstruction : Obligations.StepRunsDecodedInstruction := by
  unfold Obligations.StepRunsDecodedInstruction
  intro s u op i hf hdec hexec
  rw [step, engineStep_inside hf hdec hexec]
  refine ⟨fun hu hop => ?_, fun hu hop => ?_, fun hu => ?_⟩
  · rw [completeCycle_of_not_faulted hu, advance_of_not_setsPc hop]
  · rw [completeCycle_of_not_faulted hu, advance_of_setsPc hop]
  · rw [completeCycle_of_faulted hu]

/-- Settles O53: the map's decoder answers `i` on `m i`, whose fields are those of `i`'s format. -/
theorem anyValidMapRuns : Obligations.AnyValidMapRuns := by
  unfold Obligations.AnyValidMapRuns
  intro m s u i hm hf hexec hu
  rw [engineStep_inside hf ((decodeWith_eq_some hm).mpr rfl) hexec, completeCycle_of_not_faulted hu]
  have hset : setsPc (m i) = i.setsPcItself := hm.setpc i
  cases hi : i.setsPcItself with
  | true => rw [advance_of_setsPc (hset.trans hi), if_pos rfl]
  | false => rw [advance_of_not_setsPc (hset.trans hi), hm.count i, if_neg Bool.false_ne_true]

end Sys2Proof.Machine
end

section
/-! PROOFS. The outcomes of a step (40_dispatch.md R98), and every fault a step takes, with the table of MEM_BOUNDS
(60_exceptions.md R181). -/

namespace Sys2Proof.Machine

/-- Settles O12: a running engine has a next state, and a fault is taken from the state before the cycle. -/
theorem stepOutcomes : Obligations.StepOutcomes := by
  unfold Obligations.StepOutcomes
  refine ⟨fun s hrun => ?_, fun s h => by rw [step, engineStep, h], fun s h => by rw [step, engineStep, h]⟩
  obtain ⟨t, hstep⟩ := exists_step_of_running hrun
  refine ⟨t, hstep, fun ht => ?_⟩
  obtain ⟨r, -, rfl⟩ := takeFault_of_step hstep ht
  exact ⟨takeFault_faultedFrom s s.faultOpcode r, rfl⟩

/-- What a handler can raise does not depend on `ir`. -/
theorem Raises.of_withIr {s : State} {op : Byte} {i : Instr} {r : Raised} (h : Raises (s.withIr op) i r) :
    Raises s i r := by
  cases h with
  | operandA hi hj hp => exact .operandA hi hj hp
  | operandB hi hp => exact .operandB hi hp
  | returnAddress hp => exact .returnAddress hp
  | push hi hs => exact .push hi hs
  | pop hi hs => exact .pop hi hs
  | index v hv => exact .index v hv

/-- The inversion of a step that faults, by what raised the fault: the fetch, the decoder, or the handler of the
instruction that the step runs. -/
theorem fault_cases_of_step {s t : State} (h : step s = .next t) (ht : t.status = .faulted) :
    (255 < s.pc.toNat ∧ t = takeFault s 0#8 ⟨.memBounds, (s.pc.toNat : Int)⟩) ∨
    (∃ op : Byte, decodeOpcode op = none ∧ t = takeFault s op ⟨.unknownOpcode, (op.toNat : Int)⟩) ∨
    (∃ i r, s.Runs i ∧ Raises s i r ∧ t = takeFault s (opcodeOf i) r) := by
  obtain ⟨-, hfetch | ⟨-, hdec, rfl⟩ | ⟨i, r, hf, hraise, rfl⟩ | ⟨i, u, -, -, hu, -, rfl⟩⟩ := step_cases h
  · exact .inl hfetch
  · exact .inr (.inl ⟨_, hdec, rfl⟩)
  · exact .inr (.inr ⟨i, r, hf.runs, (raises_of_handler hraise).of_withIr, rfl⟩)
  · exact absurd ((advance_status ..).symm.trans ht) hu

theorem State.Runs.of_or {s : State} {i j k : Instr} (h : s.Runs i) (hi : i = j ∨ i = k) : s.Runs j ∨ s.Runs k := by
  obtain rfl | rfl := hi
  · exact .inl h
  · exact .inr h

/-- All but three instructions begin with a read of their first operand byte, JEQ and JNE where they branch (R181). -/
theorem mem_operandReaders {i : Instr} (hi : i ≠ .hlt ∧ i ≠ .ret ∧ i ≠ .call) :
    i ∈ [Instr.ldi, .prn, .add, .mul, .cmp, .push, .pop, .jmp, .jeq, .jne] := by
  revert hi
  cases i <;> decide

/-- Settles O16: each MEM_BOUNDS that the fetch or a handler raises is its row of the table, PC and SP being in
range. -/
theorem memBoundsCases : Obligations.MemBoundsCases := by
  unfold Obligations.MemBoundsCases
  intro s t hinv hstep ht hcause
  have hsp : s.sp.toNat ≤ 256 := hinv.sp
  obtain ⟨hpc, rfl⟩ | ⟨op, -, rfl⟩ | ⟨i, r, hrun, hraise, rfl⟩ := fault_cases_of_step hstep ht
  · exact .inl ⟨hpc, rfl⟩
  · cases hcause
  · have ⟨_, hpc, _⟩ := hrun
    simp only [takeFault_record] at hcause ⊢
    cases hraise with
    | operandA hi hj hp =>
      obtain ⟨hje, hjn⟩ := hj
      exact .inr (.inl ⟨by omega, by simp only; omega, i, mem_operandReaders hi, hrun, hje, hjn⟩)
    | operandB hi hp =>
      refine .inr (.inr (.inl ⟨hp, by simp only; omega, i, by simpa using hi, hrun⟩))
    | returnAddress hp => exact .inr (.inr (.inr (.inl ⟨hp, hrun, rfl⟩)))
    | push hi hs =>
      exact .inr (.inr (.inr (.inr (.inl ⟨by omega, by simp only; omega, hrun.of_or hi⟩))))
    | pop hi hs =>
      exact .inr (.inr (.inr (.inr (.inr ⟨by omega, by simp only; omega, hrun.of_or hi⟩))))
    | index v hv => cases hcause

end Sys2Proof.Machine
end

section
/-! PROOFS. The writers of registers and memory (10_state.md R22, 20_memory.md R54): a step changes them only by the
effect of the instruction it runs. -/

namespace Sys2Proof.Machine

/-- Settles O42: a register changes in a step only by the effect of LDI, ADD, MUL or POP. -/
theorem registerWriters : Obligations.RegisterWriters := by
  unfold Obligations.RegisterWriters
  intro s t r hstep hne
  obtain hview | ⟨i, u, hrun, heff, hview⟩ :=
    step_view (State.reg · r) (fun _ _ _ => rfl) (fun _ _ => rfl) hstep
  · exact absurd hview hne
  · obtain ⟨hwriter, hbyte⟩ := (heff.reg r).resolve_left fun hkeep => hne (hview.trans hkeep)
    refine ⟨?_, hbyte⟩
    obtain rfl | rfl | rfl | rfl := hwriter
    · exact .inl hrun
    · exact .inr (.inl hrun)
    · exact .inr (.inr (.inl hrun))
    · exact .inr (.inr (.inr hrun))

/-- Settles O43: a byte of memory changes in a step only by the effect of PUSH or CALL. -/
theorem memoryWriters : Obligations.MemoryWriters := by
  unfold Obligations.MemoryWriters
  intro s t b hstep hne
  obtain hview | ⟨i, u, hrun, heff, hview⟩ :=
    step_view (State.memByte · b) (fun _ _ _ => rfl) (fun _ _ => rfl) hstep
  · exact absurd hview hne
  · obtain ⟨hwriter, haddr⟩ := (heff.memByte b).resolve_left fun hkeep => hne (hview.trans hkeep)
    exact ⟨hrun.of_or hwriter, haddr⟩

end Sys2Proof.Machine
end

section
/-! PROOFS. The invariant of Safety.lean (10_state.md R25, R28, R35; 60_exceptions.md R180 to R184): it holds at reset
and after a load, and every step keeps it. -/

namespace Sys2Proof.Machine

/-! ## Legal fault records -/

section
variable {pc : Word9} {op : Byte} {info : Int}

theorem legal_unknownOpcode : FaultRecord.Legal pc ⟨.unknownOpcode, pc, op, info⟩ ↔
    info = op.toNat ∧ decodeOpcode op = none := and_iff_right rfl

theorem legal_memBounds : FaultRecord.Legal pc ⟨.memBounds, pc, op, info⟩ ↔
    info = -1 ∨ (256 ≤ info ∧ info ≤ 260) := and_iff_right rfl

theorem legal_regBounds : FaultRecord.Legal pc ⟨.regBounds, pc, op, info⟩ ↔ 8 ≤ info ∧ info ≤ 255 :=
  and_iff_right rfl

end

/-- What a handler raises while the PC lies in memory and SP in its range makes a legal record. -/
theorem Raises.legal {s : State} {i : Instr} {r : Raised} (h : Raises s i r) (hpc : s.pc.toNat ≤ 255)
    (hsp : s.sp.toNat ≤ 256) (op : Byte) : FaultRecord.Legal s.pc ⟨r.cause, s.pc, op, r.info⟩ := by
  cases h with
  | operandA | operandB | returnAddress | push | pop => simp only [legal_memBounds]; omega
  | index v hv =>
    have hv' : v.toNat < 256 := v.isLt
    simp only [legal_regBounds]
    omega

/-- Taking a fault with a legal record keeps the invariant. -/
theorem State.Inv.takeFault {s : State} {op : Byte} {r : Raised} (hs : s.Inv)
    (hlegal : FaultRecord.Legal s.pc ⟨r.cause, s.pc, op, r.info⟩) : (takeFault s op r).Inv where
  mem := hs.mem
  pc := hs.pc
  sp := hs.sp
  faulted := fun _ => hlegal
  clean := fun hne => absurd rfl hne

/-- A step that faults keeps the invariant: the fetch, the decoder and every handler raise legal records. -/
theorem State.Inv.of_step_faulted {s t : State} (hs : s.Inv) (hstep : step s = .next t) (ht : t.status = .faulted) :
    t.Inv := by
  have hpc : s.pc.toNat ≤ 258 := hs.pc
  obtain ⟨hout, rfl⟩ | ⟨op, hdec, rfl⟩ | ⟨i, r, ⟨-, hin, -⟩, hraise, rfl⟩ := fault_cases_of_step hstep ht
  · exact hs.takeFault (by simp only [legal_memBounds]; omega)
  · exact hs.takeFault (legal_unknownOpcode.mpr ⟨rfl, hdec⟩)
  · exact hs.takeFault (hraise.legal hin hs.sp _)

/-! ## Completed handlers -/

/-- A completed handler keeps memory canonical. -/
theorem Effect.mem_wf {s t : State} {i : Instr} (h : Effect s i t) (hwf : s.mem.wf = true) : t.mem.wf = true := by
  cases h
  case push r a hr ha hm => exact Memory.wf_write hwf (Nat.lt_succ_of_le hm) _
  case call r a hp ha hm hr => exact Memory.wf_write hwf (Nat.lt_succ_of_le hm) _
  all_goals exact hwf

/-- A completed handler keeps SP at most 256: POP and RET read at SP, which lies in memory then (R28). -/
theorem Effect.sp_le {s t : State} {i : Instr} (h : Effect s i t) (hsp : s.sp.toNat ≤ 256) : t.sp.toNat ≤ 256 := by
  have hdown {a : Nat} (ha : s.sp.toNat = a + 1) : (s.sp - 1#9).toNat ≤ 256 := by bv_omega
  have hup (hs : s.sp.toNat ≤ 255) : (s.sp + 1#9).toNat ≤ 256 := by bv_omega
  cases h
  case push r a hr ha hm => exact hdown ha
  case call r a hp ha hm hr => exact hdown ha
  case pop r hr hs => exact hup hs
  case ret hs => exact hup hs
  all_goals exact hsp

theorem zext9_toNat_le (v : Byte) : (zext9 v).toNat ≤ 255 := by bv_omega

/-- From a PC in memory a completed handler leaves the PC at most 257: a register's or a popped byte's value, or two
behind the opcode of a branch not taken (R25). -/
theorem Effect.pc_le {s t : State} {i : Instr} (h : Effect s i t) (hpc : s.pc.toNat ≤ 255) : t.pc.toNat ≤ 257 := by
  have hbyte (v : Byte) : (zext9 v).toNat ≤ 257 := (zext9_toNat_le v).trans (by decide)
  have hskip : (s.pc + 2#9).toNat ≤ 257 := by bv_omega
  cases h
  case call | ret | jump => exact hbyte _
  case skip => exact hskip
  all_goals exact hpc.trans (by decide)

/-- A cycle that completes from a PC in memory leaves the PC at most 258: an instruction has at most three bytes
(R25). -/
theorem Effect.advance_pc_le {s t : State} {i : Instr} (h : Effect s i t) (hpc : s.pc.toNat ≤ 255) :
    (advance (opcodeOf i) s.pc t).pc.toNat ≤ 258 := by
  cases hset : setsPc (opcodeOf i) with
  | true =>
    rw [advance_of_setsPc hset]
    exact (h.pc_le hpc).trans (by decide)
  | false =>
    have hcount : operandCount (opcodeOf i) ≤ 2 := operandCount_le_two i
    rw [advance_pc_toNat hset hpc]
    omega

/-- A cycle that completes keeps the invariant. -/
theorem Effect.inv_advance {s t : State} {i : Instr} (h : Effect s i t) (hs : s.Inv) (hrun : s.status = .running)
    (hpc : s.pc.toNat ≤ 255) (ht : t.status ≠ .faulted) : (advance (opcodeOf i) s.pc t).Inv := by
  have hclean : s.record = .reset := hs.clean (by simp [hrun])
  obtain ⟨pc', hadv⟩ := advance_eq (opcodeOf i) s.pc t
  have hpc' : pc'.toNat ≤ 258 := by simpa [hadv] using h.advance_pc_le hpc
  rw [hadv]
  exact
    { mem := h.mem_wf hs.mem
      pc := hpc'
      sp := h.sp_le hs.sp
      faulted := fun hfault => absurd hfault ht
      clean := fun _ => h.record.trans hclean }

theorem State.Inv.withIr {s : State} (hs : s.Inv) (op : Byte) : (s.withIr op).Inv :=
  ⟨hs.mem, hs.pc, hs.sp, hs.faulted, hs.clean⟩

/-- Settles O45: a step either takes a fault with a legal record, or completes a handler, whose effect keeps each part
of the invariant. -/
theorem invariantIsKept : Obligations.InvariantIsKept := by
  unfold Obligations.InvariantIsKept
  intro s t hs hstep
  by_cases ht : t.status = .faulted
  · exact hs.of_step_faulted hstep ht
  · obtain ⟨i, u, ⟨hrun, hpc, -⟩, hh, rfl⟩ := completes_of_step hstep ht
    rw [advance_status] at ht
    exact (effect_of_handler hh).inv_advance (hs.withIr _) hrun hpc ht

/-! ## Reset, the load, and every run -/

/-- Settles O46: the values of R210 lie in the ranges of the invariant. -/
theorem invariantAtReset : Obligations.InvariantAtReset where
  mem := reset_mem_wf
  pc := by decide
  sp := by decide
  faulted := nofun
  clean := fun _ => rfl

/-- A load that is not refused stores the image at address 0 of the reset state (R40). -/
theorem eq_of_boot {img : List Nat} {s : State} (h : boot img = .next s) :
    s = State.reset.withMem (State.reset.mem.storeBytes 0 (img.map (BitVec.ofNat 8))) := by
  unfold boot at h
  split at h
  · cases h
  · split at h
    · cases h
    · cases h; rfl

theorem boot_inv {img : List Nat} {s : State} (h : boot img = .next s) : s.Inv := by
  obtain ⟨-, hpc, hsp, hfaulted, hclean⟩ := invariantAtReset
  rw [eq_of_boot h]
  exact ⟨Memory.wf_storeBytes reset_mem_wf _ _, hpc, hsp, hfaulted, hclean⟩

/-- The invariant holds along every run from a state that meets it. -/
theorem State.Inv.of_reaches {s t : State} (hs : s.Inv) (h : Reaches s t) : t.Inv := by
  induction h with
  | refl => exact hs
  | step _ hstep ih => exact invariantIsKept _ _ ih hstep

/-- No state that meets the invariant records UNSUPPORTED_ALU_OP (R185): a legal record has another cause, the reset
record has none. -/
theorem State.Inv.cause_ne_unsupportedAluOp {s : State} (hs : s.Inv) : s.record.cause ≠ .unsupportedAluOp := by
  intro hcause
  by_cases hst : s.status = .faulted
  · obtain ⟨-, hlegal⟩ := hs.faulted hst
    rw [hcause] at hlegal
    exact hlegal
  · rw [hs.clean hst] at hcause
    cases hcause

/-- Settles O47: the loaded machine meets the invariant, and every step of its run keeps it. -/
theorem loadedRunsKeepInvariant : Obligations.LoadedRunsKeepInvariant := by
  unfold Obligations.LoadedRunsKeepInvariant
  intro img s t hboot hreach
  have ht : t.Inv := (boot_inv hboot).of_reaches hreach
  exact ⟨ht, ht.cause_ne_unsupportedAluOp⟩

end Sys2Proof.Machine
end

section
/-! PROOFS. What the host observes (10_state.md R31, R32, R42): the byte view of the flags, the codes and the exit
status. -/

namespace Sys2Proof

theorem NonzeroInt.toInt_ne_zero (n : NonzeroInt) : n.toInt ≠ 0 := by
  unfold toInt
  split <;> omega

end Sys2Proof

namespace Sys2Proof.Machine

/-- One flag at its place in the view. -/
theorem getLsbD_flagBit (b : Bool) {n : Nat} (hn : n < 8) (k : Nat) :
    (if b then BitVec.twoPow 8 n else 0#8).getLsbD k = (b && decide (n = k)) := by
  cases b <;> simp [BitVec.getLsbD_twoPow, hn]

/-- The view bit by bit: E in bit 0, G in bit 1, L in bit 2, nothing else (R31). -/
theorem getLsbD_flView (f : Flags) (k : Nat) :
    f.flView.getLsbD k = (f.e && decide (0 = k) || f.g && decide (1 = k) || f.l && decide (2 = k)) := by
  have hpow : f.flView = (if f.e then BitVec.twoPow 8 0 else 0#8) ||| (if f.g then BitVec.twoPow 8 1 else 0#8) |||
      (if f.l then BitVec.twoPow 8 2 else 0#8) := rfl
  rw [hpow, BitVec.getLsbD_or, BitVec.getLsbD_or, getLsbD_flagBit _ (by decide), getLsbD_flagBit _ (by decide),
    getLsbD_flagBit _ (by decide)]

/-- Settles O2: the four clauses are the bits of the view at 0, 1, 2 and from 3 up. -/
theorem flagViewLayout : Obligations.FlagViewLayout := by
  unfold Obligations.FlagViewLayout
  intro f
  refine ⟨(getLsbD_flView f 0).trans (by simp), (getLsbD_flView f 1).trans (by simp),
    (getLsbD_flView f 2).trans (by simp), fun k hk => ?_⟩
  have h0 : 0 ≠ k := by omega
  have h1 : 1 ≠ k := by omega
  have h2 : 2 ≠ k := by omega
  simp [getLsbD_flView, h0, h1, h2]

/-- Settles O3: the codes as defined; FAULT_EXIT_STATUS is not zero, whatever it is. -/
theorem codesAndExitStatus : Obligations.CodesAndExitStatus := by
  unfold Obligations.CodesAndExitStatus
  refine ⟨⟨rfl, rfl, rfl⟩, ⟨rfl, rfl, rfl, rfl, rfl⟩, fun s h => ?_, fun s h => ?_, fun s h => ?_⟩
  · rw [State.exitStatus, h]
  · rw [State.exitStatus, h]
  · exact ⟨_, by rw [State.exitStatus, h], Config.faultExitStatus.toInt_ne_zero⟩

end Sys2Proof.Machine
end
